-- ==== Sys2Proof/Word.lean ====
section
/-! DEFINITION. The machine's words: bytes, 16-bit words and register indexes (spec/00_scope.md R4, R6, R7). -/

namespace Sys2Proof

/-- An 8-bit value: a general register, a timer, a byte of memory (R4 `XLEN`, `TLEN`; R18). -/
abbrev Byte := BitVec 8

/-- A 16-bit value: `I`, `pc`, a stack slot, the key mask, an instruction word (R4, R6, R15, R20). -/
abbrev Word := BitVec 16

/-- The index of a general register, 0..15 (R11, R26: "register index 0–15 only"). -/
abbrev Reg := Fin 16

/-- `VF`, the register that doubles as the flag (R12). -/
abbrev vF : Reg := 15

end Sys2Proof
end

