-- ==== Sys2Proof/Syntax.lean ====
section
/-! DEFINITION. The 34 instructions, one constructor per row of spec/opcode_table.json, in the order of spec/30_encoding.md R66.
A register operand is a `Reg`; an 8-bit immediate `nn` is a `Byte`; an absolute address `nnn` (R40: "an address is a natural
number") and DRAW's row count `n` (R62) are natural numbers, whose ranges `Instr.wellFormed` checks. -/

namespace Sys2Proof

inductive Instr where
  /-- `00E0` clear screen (R141). -/
  | cls
  /-- `00EE` return (R101). -/
  | ret
  /-- `1nnn` jump absolute (R102). -/
  | jmp (nnn : Nat)
  /-- `2nnn` call (R103). -/
  | call (nnn : Nat)
  /-- `3xnn` skip if `V[x] = nn` (R104). -/
  | skeqi (x : Reg) (nn : Byte)
  /-- `4xnn` skip if `V[x] != nn` (R105). -/
  | sknei (x : Reg) (nn : Byte)
  /-- `5xy0` skip if `V[x] = V[y]` (R106). -/
  | skeqr (x y : Reg)
  /-- `9xy0` skip if `V[x] != V[y]` (R107). -/
  | skner (x y : Reg)
  /-- `6xnn` load immediate (R111). -/
  | ldimm (x : Reg) (nn : Byte)
  /-- `7xnn` add immediate, no flag (R112). -/
  | addimm (x : Reg) (nn : Byte)
  /-- `8xy0` register move (R113). -/
  | mov (x y : Reg)
  /-- `8xy1` register OR (R114). -/
  | or (x y : Reg)
  /-- `8xy2` register AND (R115). -/
  | and (x y : Reg)
  /-- `8xy3` register XOR (R117). -/
  | xor (x y : Reg)
  /-- `8xy4` register add with carry flag (R118). -/
  | add (x y : Reg)
  /-- `8xy5` register subtract with no-borrow flag (R119). -/
  | sub (x y : Reg)
  /-- `8xy6` shift right; `y` is encoded and ignored (R120, R69). -/
  | shr (x y : Reg)
  /-- `8xy7` reverse subtract (R121). -/
  | rsub (x y : Reg)
  /-- `8xyE` shift left; `y` is encoded and ignored (R123, R69). -/
  | shl (x y : Reg)
  /-- `Annn` load index (R131). -/
  | ldidx (nnn : Nat)
  /-- `Bnnn` jump to `V0 + nnn` (R108). -/
  | jmpoff (nnn : Nat)
  /-- `Cxnn` random AND immediate (R124). -/
  | rnd (x : Reg) (nn : Byte)
  /-- `Dxyn` draw an `n`-row sprite (R143). -/
  | draw (x y : Reg) (n : Nat)
  /-- `Ex9E` skip if the key is pressed (R151). -/
  | skkey (x : Reg)
  /-- `ExA1` skip if the key is not pressed (R152). -/
  | sknkey (x : Reg)
  /-- `Fx07` load delay timer (R153). -/
  | lddt (x : Reg)
  /-- `Fx15` store delay timer (R155). -/
  | stdt (x : Reg)
  /-- `Fx18` store sound timer (R156). -/
  | stst (x : Reg)
  /-- `Fx1E` add register to index (R132). -/
  | addidx (x : Reg)
  /-- `Fx29` load index with a glyph address (R133). -/
  | ldfont (x : Reg)
  /-- `Fx33` store BCD digits (R134). -/
  | stbcd (x : Reg)
  /-- `Fx55` store register range (R135). -/
  | stregs (x : Reg)
  /-- `Fx65` load register range (R136). -/
  | ldregs (x : Reg)
  /-- `Fx0A` wait for a key (R154). -/
  | waitkey (x : Reg)
  deriving DecidableEq, Repr

/-- The decoder's result (R9, R63, R73): one of the 34 operations, or `Invalid`, which keeps both raw bytes. -/
inductive Operation where
  | op (i : Instr)
  | invalid (byte1 byte2 : Byte)
  deriving DecidableEq, Repr

/-- The six operand shapes of the valid operations (R61). -/
inductive Format where
  | noOperand
  | absoluteAddress
  | registerImmediate
  | registerPair
  | registerPairImmediate
  | singleRegister
  deriving DecidableEq, Repr

/-- The shape of each operation (R61, R66). -/
def Instr.format : Instr → Format
  | .cls | .ret => .noOperand
  | .jmp _ | .call _ | .ldidx _ | .jmpoff _ => .absoluteAddress
  | .skeqi _ _ | .sknei _ _ | .ldimm _ _ | .addimm _ _ | .rnd _ _ => .registerImmediate
  | .skeqr _ _ | .skner _ _ | .mov _ _ | .or _ _ | .and _ _ | .xor _ _ | .add _ _ | .sub _ _ | .shr _ _ | .rsub _ _
  | .shl _ _ => .registerPair
  | .draw _ _ _ => .registerPairImmediate
  | .skkey _ | .sknkey _ | .lddt _ | .stdt _ | .stst _ | .addidx _ | .ldfont _ | .stbcd _ | .stregs _ | .ldregs _
  | .waitkey _ => .singleRegister

end Sys2Proof
end

