-- ==== Sys2Proof/WellFormed.lean ====
section
/-! DEFINITION. Which instruction terms an encoding can hold: `nnn` has 12 bits and `n` has 4 (spec/30_encoding.md R61, R62).
Registers and 8-bit immediates fit by their types. -/

namespace Sys2Proof

/-- An absolute address that fits the field `nnn` (R62: 0..4095). -/
def fitsAddress (nnn : Nat) : Bool := decide (nnn < 4096)

/-- A row count that fits the field `n` (R62: 0..15). -/
def fitsCount (n : Nat) : Bool := decide (n < 16)

/-- The operands fit the instruction's format (R61, R62). -/
def Instr.wellFormed : Instr → Bool
  | .jmp nnn | .call nnn | .ldidx nnn | .jmpoff nnn => fitsAddress nnn
  | .draw _ _ n => fitsCount n
  | .cls | .ret => true
  | .skeqi _ _ | .sknei _ _ | .ldimm _ _ | .addimm _ _ | .rnd _ _ => true
  | .skeqr _ _ | .skner _ _ | .mov _ _ | .or _ _ | .and _ _ | .xor _ _ | .add _ _ | .sub _ _ | .shr _ _ | .rsub _ _
  | .shl _ _ => true
  | .skkey _ | .sknkey _ | .lddt _ | .stdt _ | .stst _ | .addidx _ | .ldfont _ | .stbcd _ | .stregs _ | .ldregs _
  | .waitkey _ => true

end Sys2Proof
end

