-- ==== Sys2Proof/Decode.lean ====
section
/-! DEFINITION. The decoder of spec/30_encoding.md R62 to R73, pure and total on any two bytes, then the encoder and the opcode
map written from the table of R66. -/

namespace Sys2Proof

/-- The family, the top nibble of `byte1` (R6). -/
def familyOf (b1 : Byte) : Nat := b1.toNat / 16

/-- `nibble1 = byte1 & 0xF`, register X (R62). -/
def fieldX (b1 : Byte) : Reg := ⟨b1.toNat % 16, Nat.mod_lt _ (by decide)⟩

/-- `nibble2 = byte2 >> 4`, register Y (R62). -/
def fieldY (b2 : Byte) : Reg := ⟨b2.toNat / 16, by have := b2.isLt; omega⟩

/-- `nibble3 = byte2 & 0xF`, a 4-bit count or a selector (R62). -/
def fieldN (b2 : Byte) : Nat := b2.toNat % 16

/-- The 12-bit absolute address, `nibble1 * 256 + byte2` (R62). -/
def fieldNNN (b1 b2 : Byte) : Nat := b1.toNat % 16 * 256 + b2.toNat

/-- Family 0x0 is matched on the whole word (R64, R68). -/
def decodeFamily0 (b1 b2 : Byte) : Operation :=
  if b1 = 0x00 ∧ b2 = 0xE0 then .op .cls
  else if b1 = 0x00 ∧ b2 = 0xEE then .op .ret
  else .invalid b1 b2

/-- Family 0x8: the second test is on the low nibble (R64). -/
def decodeFamily8 (b1 b2 : Byte) : Operation :=
  let x := fieldX b1
  let y := fieldY b2
  match fieldN b2 with
  | 0 => .op (.mov x y)
  | 1 => .op (.or x y)
  | 2 => .op (.and x y)
  | 3 => .op (.xor x y)
  | 4 => .op (.add x y)
  | 5 => .op (.sub x y)
  | 6 => .op (.shr x y)
  | 7 => .op (.rsub x y)
  | 14 => .op (.shl x y)
  | _ => .invalid b1 b2

/-- Family 0xE: the second test is on all of `byte2` (R64). -/
def decodeFamilyE (b1 b2 : Byte) : Operation :=
  if b2 = 0x9E then .op (.skkey (fieldX b1))
  else if b2 = 0xA1 then .op (.sknkey (fieldX b1))
  else .invalid b1 b2

/-- Family 0xF: the second test is on all of `byte2` (R64). -/
def decodeFamilyF (b1 b2 : Byte) : Operation :=
  let x := fieldX b1
  if b2 = 0x07 then .op (.lddt x)
  else if b2 = 0x0A then .op (.waitkey x)
  else if b2 = 0x15 then .op (.stdt x)
  else if b2 = 0x18 then .op (.stst x)
  else if b2 = 0x1E then .op (.addidx x)
  else if b2 = 0x29 then .op (.ldfont x)
  else if b2 = 0x33 then .op (.stbcd x)
  else if b2 = 0x55 then .op (.stregs x)
  else if b2 = 0x65 then .op (.ldregs x)
  else .invalid b1 b2

/-- `decode(byte1, byte2)` (R63, R64, R66): every pair of bytes has exactly one result. -/
def decode (b1 b2 : Byte) : Operation :=
  match familyOf b1 with
  | 0 => decodeFamily0 b1 b2
  | 1 => .op (.jmp (fieldNNN b1 b2))
  | 2 => .op (.call (fieldNNN b1 b2))
  | 3 => .op (.skeqi (fieldX b1) b2)
  | 4 => .op (.sknei (fieldX b1) b2)
  | 5 => if fieldN b2 = 0 then .op (.skeqr (fieldX b1) (fieldY b2)) else .invalid b1 b2
  | 6 => .op (.ldimm (fieldX b1) b2)
  | 7 => .op (.addimm (fieldX b1) b2)
  | 8 => decodeFamily8 b1 b2
  | 9 => if fieldN b2 = 0 then .op (.skner (fieldX b1) (fieldY b2)) else .invalid b1 b2
  | 10 => .op (.ldidx (fieldNNN b1 b2))
  | 11 => .op (.jmpoff (fieldNNN b1 b2))
  | 12 => .op (.rnd (fieldX b1) b2)
  | 13 => .op (.draw (fieldX b1) (fieldY b2) (fieldN b2))
  | 14 => decodeFamilyE b1 b2
  | _ => decodeFamilyF b1 b2

/-- `byte1` of an instruction word (R6: `W = byte1 * 256 + byte2`). -/
def highByte (w : Word) : Byte := BitVec.ofNat 8 (w.toNat / 256)

/-- `byte2` of an instruction word (R6). -/
def lowByte (w : Word) : Byte := BitVec.ofNat 8 (w.toNat % 256)

/-- The decoder on an instruction word (R6, R63). -/
def decodeWord (w : Word) : Operation := decode (highByte w) (lowByte w)

/-- The word with fields `op`, `x`, `nn` (R61, format RegisterImmediate). -/
def wordXNN (op : Nat) (x : Reg) (nn : Nat) : Nat := op * 4096 + x.val * 256 + nn

/-- The word with fields `op`, `x`, `y`, `n` (R61, formats RegisterPair and RegisterPairImmediate). -/
def wordXYN (op : Nat) (x y : Reg) (n : Nat) : Nat := op * 4096 + x.val * 256 + y.val * 16 + n

/-- The word with fields `op`, `nnn` (R61, format AbsoluteAddress). -/
def wordNNN (op nnn : Nat) : Nat := op * 4096 + nnn

/-- The value of an instruction's word (R61, R66). -/
def Instr.wordValue : Instr → Nat
  | .cls => 0x00E0
  | .ret => 0x00EE
  | .jmp nnn => wordNNN 0x1 nnn
  | .call nnn => wordNNN 0x2 nnn
  | .skeqi x nn => wordXNN 0x3 x nn.toNat
  | .sknei x nn => wordXNN 0x4 x nn.toNat
  | .skeqr x y => wordXYN 0x5 x y 0x0
  | .skner x y => wordXYN 0x9 x y 0x0
  | .ldimm x nn => wordXNN 0x6 x nn.toNat
  | .addimm x nn => wordXNN 0x7 x nn.toNat
  | .mov x y => wordXYN 0x8 x y 0x0
  | .or x y => wordXYN 0x8 x y 0x1
  | .and x y => wordXYN 0x8 x y 0x2
  | .xor x y => wordXYN 0x8 x y 0x3
  | .add x y => wordXYN 0x8 x y 0x4
  | .sub x y => wordXYN 0x8 x y 0x5
  | .shr x y => wordXYN 0x8 x y 0x6
  | .rsub x y => wordXYN 0x8 x y 0x7
  | .shl x y => wordXYN 0x8 x y 0xE
  | .ldidx nnn => wordNNN 0xA nnn
  | .jmpoff nnn => wordNNN 0xB nnn
  | .rnd x nn => wordXNN 0xC x nn.toNat
  | .draw x y n => wordXYN 0xD x y n
  | .skkey x => wordXNN 0xE x 0x9E
  | .sknkey x => wordXNN 0xE x 0xA1
  | .lddt x => wordXNN 0xF x 0x07
  | .stdt x => wordXNN 0xF x 0x15
  | .stst x => wordXNN 0xF x 0x18
  | .addidx x => wordXNN 0xF x 0x1E
  | .ldfont x => wordXNN 0xF x 0x29
  | .stbcd x => wordXNN 0xF x 0x33
  | .stregs x => wordXNN 0xF x 0x55
  | .ldregs x => wordXNN 0xF x 0x65
  | .waitkey x => wordXNN 0xF x 0x0A

/-- The word of a well-formed instruction (R61, R66). -/
def encode (i : Instr) : Word := BitVec.ofNat 16 i.wordValue

/-- The mnemonic of each operation, as spec/opcode_table.json spells it (R66, R85; log 26). -/
def Instr.mnemonic : Instr → String
  | .cls => "CLS"
  | .ret => "RET"
  | .jmp _ => "JMP"
  | .call _ => "CALL"
  | .skeqi _ _ => "SKEQI"
  | .sknei _ _ => "SKNEI"
  | .skeqr _ _ => "SKEQR"
  | .skner _ _ => "SKNER"
  | .ldimm _ _ => "LDIMM"
  | .addimm _ _ => "ADDIMM"
  | .mov _ _ => "MOV"
  | .or _ _ => "OR"
  | .and _ _ => "AND"
  | .xor _ _ => "XOR"
  | .add _ _ => "ADD"
  | .sub _ _ => "SUB"
  | .shr _ _ => "SHR"
  | .rsub _ _ => "RSUB"
  | .shl _ _ => "SHL"
  | .ldidx _ => "LDIDX"
  | .jmpoff _ => "JMPOFF"
  | .rnd _ _ => "RND"
  | .draw _ _ _ => "DRAW"
  | .skkey _ => "SKKEY"
  | .sknkey _ => "SKNKEY"
  | .lddt _ => "LDDT"
  | .stdt _ => "STDT"
  | .stst _ => "STST"
  | .addidx _ => "ADDIDX"
  | .ldfont _ => "LDFONT"
  | .stbcd _ => "STBCD"
  | .stregs _ => "STREGS"
  | .ldregs _ => "LDREGS"
  | .waitkey _ => "WAITKEY"

/-- One row of the opcode map: a word `W` selects it iff `W & mask = match` (R66). -/
structure OpcodeRow where
  mnemonic : String
  pattern : Nat
  mask : Nat
  deriving DecidableEq, Repr

/-- Rows 1 to 12 of the opcode map (R66; `pattern` is the column `match`). -/
def opcodeRowsA : List OpcodeRow :=
  [⟨"CLS", 0x00E0, 0xFFFF⟩, ⟨"RET", 0x00EE, 0xFFFF⟩, ⟨"JMP", 0x1000, 0xF000⟩, ⟨"CALL", 0x2000, 0xF000⟩,
   ⟨"SKEQI", 0x3000, 0xF000⟩, ⟨"SKNEI", 0x4000, 0xF000⟩, ⟨"SKEQR", 0x5000, 0xF00F⟩, ⟨"SKNER", 0x9000, 0xF00F⟩,
   ⟨"LDIMM", 0x6000, 0xF000⟩, ⟨"ADDIMM", 0x7000, 0xF000⟩, ⟨"MOV", 0x8000, 0xF00F⟩, ⟨"OR", 0x8001, 0xF00F⟩]

/-- Rows 13 to 23 of the opcode map (R66). -/
def opcodeRowsB : List OpcodeRow :=
  [⟨"AND", 0x8002, 0xF00F⟩, ⟨"XOR", 0x8003, 0xF00F⟩, ⟨"ADD", 0x8004, 0xF00F⟩, ⟨"SUB", 0x8005, 0xF00F⟩,
   ⟨"SHR", 0x8006, 0xF00F⟩, ⟨"RSUB", 0x8007, 0xF00F⟩, ⟨"SHL", 0x800E, 0xF00F⟩, ⟨"LDIDX", 0xA000, 0xF000⟩,
   ⟨"JMPOFF", 0xB000, 0xF000⟩, ⟨"RND", 0xC000, 0xF000⟩, ⟨"DRAW", 0xD000, 0xF000⟩]

/-- Rows 24 to 34 of the opcode map (R66). -/
def opcodeRowsC : List OpcodeRow :=
  [⟨"SKKEY", 0xE09E, 0xF0FF⟩, ⟨"SKNKEY", 0xE0A1, 0xF0FF⟩, ⟨"LDDT", 0xF007, 0xF0FF⟩, ⟨"STDT", 0xF015, 0xF0FF⟩,
   ⟨"STST", 0xF018, 0xF0FF⟩, ⟨"ADDIDX", 0xF01E, 0xF0FF⟩, ⟨"LDFONT", 0xF029, 0xF0FF⟩, ⟨"STBCD", 0xF033, 0xF0FF⟩,
   ⟨"STREGS", 0xF055, 0xF0FF⟩, ⟨"LDREGS", 0xF065, 0xF0FF⟩, ⟨"WAITKEY", 0xF00A, 0xF0FF⟩]

/-- The 34 rows of the opcode map, in its order (R66). -/
def opcodeTable : List OpcodeRow := opcodeRowsA ++ opcodeRowsB ++ opcodeRowsC

/-- `W & mask = match` (R66). -/
def OpcodeRow.selects (r : OpcodeRow) (w : Nat) : Bool := w &&& r.mask == r.pattern

/-- The instruction this decoder reads from the table's 16-bit word `w` (bit 15 of the word is bit 7 of `byte1`, R61); none
where it decodes to `Invalid`. Every instruction has 16 bits (R60), so the bits above `nbits` are the zero bits of `w`. -/
def decodeTableWord (nbits w : Nat) : Option Instr :=
  match decodeWord (BitVec.ofNat 16 (w % 2 ^ nbits)) with
  | .op i => some i
  | .invalid _ _ => none

end Sys2Proof
end

