-- ==== Sys2Proof/Config.lean ====
section
/-! DEFINITION. What is fixed for the machine: the literals of spec/00_scope.md R4, and the open parameters of R5 as free
values, which have no body, so that nothing can be proved about a particular one. -/

namespace Sys2Proof.Config

/-- `MEM_SIZE` (R4): bytes 0x000 to 0xFFF. -/
def memSize : Nat := 4096

/-- `PROG_BASE` (R4): where the image is loaded and where execution starts. -/
def progBase : Nat := 0x200

/-- The longest image that fits, 4096 - 0x200 (R191). -/
def maxImage : Nat := 3584

/-- `GLYPH_BYTES` (R4). -/
def glyphBytes : Nat := 5

/-- `FONT_SIZE` (R4): 16 glyphs of 5 bytes at address 0. -/
def fontSize : Nat := 80

/-- `RNG_SEED` (R5, R22; spec decision D17): a free value. The abstract generator state is coded as a natural number (log 14). -/
opaque rngSeed : Nat

/-- `rng_next : state -> (byte, state)` (R5, R122; spec decision D17): a free value (log 14). -/
opaque rngNext : Nat → Byte × Nat

/-- The key mask before the first poll, "chosen by the host" (R20, R35; spec decision D23): a free value (log 21). -/
opaque initialKeys : Word

/-- `keys(k)` (R5, R33): the mask the host gives at the poll numbered by the argument, where `State.inputs` lists none (log 16). -/
opaque hostKeys : Nat → Word

/-- `ticks(k)` (R5, R33; spec decision D18), where `State.inputs` lists none (log 15, log 16). -/
opaque hostTicks : Nat → Nat

/-- `quit(k)` (R5, R172), where `State.inputs` lists none (log 16). -/
opaque hostQuit : Nat → Bool

/-- `waitkey(k)` (R5, R154): a key index 0..15, or none yet, where `State.inputs` lists none (log 13, log 16). -/
opaque hostWaitkey : Nat → Option (Fin 16)

end Sys2Proof.Config
end

