-- ==== Sys2Proof/Machine/State.lean ====
section
/-! DEFINITION. The machine's state (spec/10_state.md R11 to R25), the fault values of spec/60_exceptions.md R160, and the
state right after reset (R35). -/

namespace Sys2Proof.Machine

/-- The fault value of R166, a kind of R160 and the recorded address of R167. As a value of `State.run` it is what a fault
leaves behind; as an outcome it is answered by `step` alone, on a state whose `run` already holds it (R168: "a faulted machine
takes no further step"; log 22). Safe: the machine stops where the spec says it stops. -/
inductive Fault where
  /-- Code 1: a fetch at `pc > 4094` (R161), recorded with that `pc`; raised by the fetch of any iteration. Safe. -/
  | pcOutOfBounds (addr : Word)
  /-- Code 2: CALL with a full stack (R162), recorded with the CALL's address. Safe. -/
  | stackOverflow (addr : Word)
  /-- Code 3: RET with an empty stack (R163), recorded with the RET's address. Safe. -/
  | stackUnderflow (addr : Word)
  /-- Code 4: executing a word that decodes to `Invalid` (R164), recorded with its address. Safe. -/
  | invalidOpcode (addr : Word)
  /-- Code 5: STBCD, STREGS, LDREGS or DRAW with an address above 4095 in its range (R165), recorded with the instruction's
  address. Safe (log 7). -/
  | memOutOfBounds (addr : Word)
  deriving DecidableEq, Repr

/-- Why no machine or no meaning is there. -/
inductive Refusal where
  /-- Raised by `exec` alone, for an instruction that has no meaning yet (none is left). Safe. -/
  | notModelled (mnemonic : String)
  /-- Raised by `construct` (the reset with an image), for an image longer than 3584 bytes (R191): no machine is constructed.
  Safe. -/
  | imageTooLarge (length : Nat)
  deriving DecidableEq, Repr

/-- `RUN` (R23). -/
inductive RunStatus where
  | running
  | halted
  | faulted (f : Fault)
  deriving DecidableEq, Repr

/-- What the host supplies to one iteration (00_scope.md R5, R171): the mask of the poll, the elapsed ticks, whether quit is
requested, and its answer to WAITKEY, if any yet. -/
structure HostInput where
  keys : Word
  ticks : Nat
  quit : Bool
  waitkey : Option (Fin 16)
  deriving DecidableEq, Repr

/-- The display grid, `frame[row][col]` (R19). -/
abbrev Frame := Vector (Vector Bool 64) 32

/-- Memory as (address, byte) pairs in one canonical form (`Memory.wf`, Machine/Ops.lean): an address that is not listed reads
as its reset contents (R41; log 32). -/
abbrev Memory := List Host.Cell

/-- The whole state (R25). `hold`, `inputs` and `draws` stand for R187's wait state and the host's draws (log 13, log 16). -/
structure State where
  /-- `V0..VF` (R11, R12). -/
  v : Vector Byte 16
  /-- `I` (R13). -/
  idx : Word
  /-- `pc` (R14). -/
  pc : Word
  /-- `STK[0..15]` (R15). -/
  stk : Vector Word 16
  /-- `sp`, the number of return addresses held, 0..16 (R15). -/
  sp : Fin 17
  /-- `DT` (R16). -/
  dt : Byte
  /-- `ST` (R17). -/
  st : Byte
  /-- `MEM` (R18, R40). -/
  mem : Memory
  /-- `FB` (R19). -/
  fb : Frame
  /-- `KEYS`, the mask of the last poll (R20). -/
  keys : Word
  /-- `RNG`, the abstract generator state (R22; log 14). -/
  rng : Nat
  /-- `RUN` (R23). -/
  run : RunStatus
  /-- The register of a WAITKEY that is held waiting for the host (R154, R187). -/
  hold : Option Reg
  /-- The model's own: the host's answers still to come, one record per step, oldest first (R5, R171; log 16). -/
  inputs : List HostInput
  /-- The model's own: how many records have been consumed; it numbers the free host inputs (log 16). -/
  draws : Nat
  deriving DecidableEq, Repr

/-- The state right after reset with the empty image (R35, R190; an image of length 0 is legal, R191). An image is loaded by
`construct` (Machine/Ops.lean). -/
def State.reset : State where
  v := Vector.replicate 16 0
  idx := 0
  pc := BitVec.ofNat 16 Config.progBase
  stk := Vector.replicate 16 0
  sp := 0
  dt := 0
  st := 0
  mem := []
  fb := Vector.replicate 32 (Vector.replicate 64 false)
  keys := Config.initialKeys
  rng := Config.rngSeed
  run := .running
  hold := none
  inputs := []
  draws := 0

end Sys2Proof.Machine
end

