-- ==== Sys2Proof/Machine/Ops.lean ====
section
/-! DEFINITION. The shared operations: memory, registers, stack, the generator, the display grid, taking a fault, the phases of
an iteration (spec/10_state.md R30 to R33), the wait of WAITKEY, and reset with an image. -/

namespace Sys2Proof.Machine

/-! ### Memory (spec/20_memory.md) -/

/-- What an address that is not listed reads as, its reset contents without an image (R41): the font at 0x000..0x04F, every
other byte 0 (spec decision D20; log 18). -/
def initialByte (a : Nat) : Byte := font.getD a 0

/-- The byte at an address (R47). -/
def Memory.read : Memory → Nat → Byte
  | [], a => initialByte a
  | (b, w) :: m, a => if a = b then w else Memory.read m a

/-- Drop every entry for an address. -/
def Memory.erase (m : Memory) (a : Nat) : Memory := m.filter fun c => c.1 != a

/-- Put an entry before the first entry of a greater address. -/
def Memory.insert (a : Nat) (v : Byte) : Memory → Memory
  | [] => [(a, v)]
  | (b, w) :: m => if a < b then (a, v) :: (b, w) :: m else (b, w) :: Memory.insert a v m

/-- Store a byte at an address (R47). The canonical form is kept: storing the reset contents removes the entry. -/
def Memory.write (m : Memory) (a : Nat) (v : Byte) : Memory :=
  if v = initialByte a then m.erase a else Memory.insert a v (m.erase a)

/-- Addresses strictly rising and above `low` (used by `Memory.wf`). -/
def Memory.risingFrom : Nat → Memory → Bool
  | _, [] => true
  | low, (a, _) :: m => decide (low ≤ a) && Memory.risingFrom (a + 1) m

/-- The canonical form: addresses strictly rising, every one inside `MEM` (R40), and no entry equal to what its address would
read as if it were not listed. -/
def Memory.wf (m : Memory) : Bool :=
  Memory.risingFrom 0 m && m.all fun c => decide (c.1 < Config.memSize) && decide (c.2 ≠ initialByte c.1)

/-- Store bytes at ascending addresses (R45, R50). -/
def Memory.writeBytes : Memory → Nat → List Byte → Memory
  | m, _, [] => m
  | m, a, v :: vs => Memory.writeBytes (m.write a v) (a + 1) vs

/-- `MemRead(addr, 1)` (R7). -/
def State.readMem (s : State) (a : Nat) : Byte := s.mem.read a

/-- `MemWrite` at ascending addresses (R7, R45). -/
def State.writeMem (s : State) (a : Nat) (vs : List Byte) : State := { s with mem := s.mem.writeBytes a vs }

/-! ### Registers, program counter, stack, generator -/

/-- `V[x]` (R7, R11). -/
def State.readV (s : State) (x : Reg) : Byte := s.v[x.val]

/-- `V[x] <- b` (R7, R11). -/
def State.writeV (s : State) (x : Reg) (b : Byte) : State := { s with v := s.v.set x.val b }

/-- Replace the whole register file. -/
def State.setRegs (s : State) (f : Reg → Byte) : State := { s with v := Vector.ofFn f }

/-- `I <- w` (R7, R13). -/
def State.setIdx (s : State) (w : Word) : State := { s with idx := w }

/-- `pc <- w` (R7, R14). -/
def State.setPc (s : State) (w : Word) : State := { s with pc := w }

/-- `DT <- b` (R16). -/
def State.setDt (s : State) (b : Byte) : State := { s with dt := b }

/-- `ST <- b` (R17). -/
def State.setSt (s : State) (b : Byte) : State := { s with st := b }

/-- `FB <- f` (R19). -/
def State.setFb (s : State) (f : Frame) : State := { s with fb := f }

/-- `RUN <- r` (R23). -/
def State.setRun (s : State) (r : RunStatus) : State := { s with run := r }

/-- Enter or leave the wait state of WAITKEY (R187). -/
def State.setHold (s : State) (h : Option Reg) : State := { s with hold := h }

/-- The advance of an iteration, `pc <- a + 2`, done before execute (R32). -/
def State.advance (s : State) : State := s.setPc (s.pc + 2)

/-- The address `a` an instruction was fetched from, seen from its execute step, where `pc` already holds `a + 2` (R32, R100). -/
def State.instrAddr (s : State) : Word := s.pc - 2

/-- A taken skip: `pc <- pc + 2` (R32). -/
def State.skipIf (s : State) (c : Bool) : State := if c then s.setPc (s.pc + 2) else s

/-- `STK[sp] <- w; sp <- sp + 1`, on a stack that is not full (R103). -/
def State.push (s : State) (w : Word) (h : s.sp.val < 16) : State :=
  { s with stk := s.stk.set s.sp.val w, sp := ⟨s.sp.val + 1, by omega⟩ }

/-- `sp <- sp - 1; pc <- STK[sp]`, on a stack that is not empty (R101). The slot keeps its value (R15). -/
def State.popPc (s : State) (h : 0 < s.sp.val) : State :=
  { s with sp := ⟨s.sp.val - 1, by omega⟩, pc := s.stk[s.sp.val - 1]'(by have := s.sp.isLt; omega) }

/-- The byte of `rng()` (R122). -/
def State.rngByte (s : State) : Byte := (Config.rngNext s.rng).1

/-- The generator's state after `rng()` (R122). -/
def State.rngStep (s : State) : State := { s with rng := (Config.rngNext s.rng).2 }

/-! ### Taking a fault (spec/60_exceptions.md R166) -/

/-- `raise K(addr)`: `RUN <- Faulted(K, addr)` and nothing else (R166). There is no handler and no return (R168). -/
def State.raise (s : State) (f : Fault) : State := s.setRun (.faulted f)

/-- The fault codes of R160. -/
def Fault.code : Fault → Nat
  | .pcOutOfBounds _ => 1
  | .stackOverflow _ => 2
  | .stackUnderflow _ => 3
  | .invalidOpcode _ => 4
  | .memOutOfBounds _ => 5

/-- The recorded address (R167). -/
def Fault.addr : Fault → Word
  | .pcOutOfBounds a | .stackOverflow a | .stackUnderflow a | .invalidOpcode a | .memOutOfBounds a => a

/-! ### The display grid (spec/43_display.md) -/

/-- `FB[row][col]` (R19). -/
def Frame.cell (f : Frame) (row : Fin 32) (col : Fin 64) : Bool := f[row.val][col.val]

/-- The grid with every cell 0 (R141). -/
def Frame.blank : Frame := Vector.replicate 32 (Vector.replicate 64 false)

/-- `FB[row][col] <- FB[row][col] ^ 1` (R143). -/
def Frame.flip (f : Frame) (row : Fin 32) (col : Fin 64) : Frame :=
  f.set row.val (f[row.val].set col.val (!f.cell row col))

/-- `bit(r, c) = (s_r >> (7 - c)) & 1` for a sprite row byte `s_r`: bit 7 is the leftmost cell (R142; log 20). -/
def spriteBit (s : Byte) (c : Nat) : Bool := s.toNat / 2 ^ (7 - c) % 2 == 1

/-- `(V[x] + c) mod 64` (R142). -/
def wrapCol (x0 c : Nat) : Fin 64 := ⟨(x0 + c) % 64, Nat.mod_lt _ (by decide)⟩

/-- `(V[y] + r) mod 32` (R142). -/
def wrapRow (y0 r : Nat) : Fin 32 := ⟨(y0 + r) % 32, Nat.mod_lt _ (by decide)⟩

/-- One cell of R143's inner loop; the pair is the grid and `hit`. -/
def drawCell (x0 : Nat) (row : Fin 32) (s : Byte) (acc : Frame × Bool) (c : Nat) : Frame × Bool :=
  if spriteBit s c then (acc.1.flip row (wrapCol x0 c), acc.2 || acc.1.cell row (wrapCol x0 c)) else acc

/-- R143's inner loop, `for c in 0 .. 7`. -/
def drawRow (x0 : Nat) (row : Fin 32) (s : Byte) (acc : Frame × Bool) : Frame × Bool :=
  (List.range 8).foldl (drawCell x0 row s) acc

/-- R143's outer loop, `for r in 0 .. n-1`, over the row bytes `s_0, s_1, …`, from `hit = 0`. -/
def drawSprite (x0 y0 n : Nat) (rowByte : Nat → Byte) (f : Frame) : Frame × Bool :=
  (List.range n).foldl (fun acc r => drawRow x0 (wrapRow y0 r) (rowByte r) acc) (f, false)

/-! ### The host's inputs and the phases after execute (R33, R171, R172) -/

/-- The host's record for the coming step: the oldest one listed, or free values (R5; log 16). -/
def State.hostInput (s : State) : HostInput :=
  match s.inputs with
  | h :: _ => h
  | [] =>
    { keys := Config.hostKeys s.draws, ticks := Config.hostTicks s.draws, quit := Config.hostQuit s.draws,
      waitkey := Config.hostWaitkey s.draws }

/-- The step's record is used up. -/
def State.consumeInput (s : State) : State := { s with inputs := s.inputs.tail, draws := s.draws + 1 }

/-- R33 step 1: `KEYS <- keys(k)`. -/
def State.poll (s : State) : State := { s with keys := s.hostInput.keys }

/-- What R33 step 2 hands to the Display contract's `present`. -/
def State.presented (s : State) : Frame := s.fb

/-- R33 step 2: an output event "with no effect on any state of this spec". -/
def State.present (s : State) : State := s

/-- `max(0, t - ticks)` on an 8-bit timer (R176): the subtraction of natural numbers stops at 0. -/
def decayTimer (b : Byte) (ticks : Nat) : Byte := BitVec.ofNat 8 (b.toNat - ticks)

/-- R33 step 3: both timers decay by the same number of ticks. -/
def State.decay (s : State) : State :=
  { s with dt := decayTimer s.dt s.hostInput.ticks, st := decayTimer s.st s.hostInput.ticks }

/-- R30 step 6: `if quit(k) then RUN <- Halted` (R172). -/
def State.quitTest (s : State) : State := s.setRun (if s.hostInput.quit then .halted else s.run)

/-- What follows execute. A faulted iteration does none of it (R166), nor does one that quit ended inside WAITKEY (R154). While
WAITKEY holds the engine only the host's "not yet" goes by (R187). -/
def State.endIteration (s : State) : State :=
  match s.run with
  | .running =>
    match s.hold with
    | none => s.poll.present.decay.quitTest.consumeInput
    | some _ => s.consumeInput
  | .halted => s
  | .faulted _ => s

/-- WAITKEY's host transaction (R154): the host's key goes into `V[x]` and the wait is over; a quit ends the run with `V[x]`
unwritten; with neither, the engine is held. -/
def State.waitForKey (s : State) (x : Reg) : State :=
  match s.hostInput.waitkey with
  | some k => (s.writeV x (BitVec.ofNat 8 k.val)).setHold none
  | none => if s.hostInput.quit then (s.setHold none).setRun .halted else s.setHold (some x)

/-! ### Fetch (R31) -/

/-- The two bytes at `pc`, or none where `pc > 4094` (R31, R43, R161). -/
def State.fetch (s : State) : Option (Byte × Byte) :=
  if s.pc.toNat > 4094 then none else some (s.readMem s.pc.toNat, s.readMem (s.pc.toNat + 1))

/-- The fetch fault: `raise PcOutOfBounds(a)` before the advance, with `a = pc` (R31, R161, R167). -/
def State.fetchFault (s : State) : State := s.raise (.pcOutOfBounds s.pc)

/-- Executing an `Invalid` operation: `pc` is advanced, then `raise InvalidOpcode(a)` (R30 steps 3 and 4, R164). -/
def State.invalidFault (s : State) : State := s.advance.raise (.invalidOpcode s.pc)

/-! ### Reset with an image (spec/70_reset_and_hazards.md R190, R191) -/

/-- Reset with the image `IMAGE`: refused where it is longer than 3584 bytes (R191), else the state of R190. -/
def construct (image : List Byte) : Host.Outcome State Fault Refusal :=
  if image.length > Config.maxImage then .refused (.imageTooLarge image.length)
  else .next (State.reset.writeMem Config.progBase image)

/-- Place an instruction where the next step fetches it: its two bytes at `pc`, `byte1` first (R43), on a machine that runs and
is not held. A `pc` that no fetch can use is moved to 0x200. -/
def placeWord (s : State) (w : Word) : State :=
  let a := if s.pc.toNat > 4094 then Config.progBase else s.pc.toNat
  (((s.setPc (BitVec.ofNat 16 a)).setRun .running).setHold none).writeMem a [highByte w, lowByte w]

end Sys2Proof.Machine
end

