-- ==== Sys2Proof/Machine/Operands.lean ====
section
/-! DEFINITION. The operand forms: the implicit effective addresses `I + offset` and their bounds check (spec/20_memory.md R44,
spec/42_index_memory.md R130), the register range of STREGS and LDREGS, and the key a register names. Register and immediate
operands need no form of their own (spec/30_encoding.md R62: every immediate is zero-extended). -/

namespace Sys2Proof.Machine

/-- The effective address `I + offset`, an unbounded integer (R44, R130). -/
def State.effAddr (s : State) (offset : Nat) : Nat := s.idx.toNat + offset

/-- Some address of the range `base .. base + len - 1` is above 4095; an empty range touches nothing (R44). -/
def rangeOutside (base len : Nat) : Bool := decide (1 ≤ len ∧ base + len - 1 > 4095)

/-- Check the whole range `I .. I + len - 1` first: `raise MemOutOfBounds(a)` with no other effect, or go on (R44, R165). -/
def State.checkRange (s : State) (len : Nat) (body : State) : State :=
  if rangeOutside s.idx.toNat len then s.raise (.memOutOfBounds s.instrAddr) else body

/-- `V[0], V[1], …, V[x]` (R45, R135). -/
def State.regsUpTo (s : State) (x : Reg) : List Byte := s.v.toList.take (x.val + 1)

/-- `for i in 0 .. x: V[i] <- MemRead(I + i, 1)` (R136). -/
def State.loadRegs (s : State) (x : Reg) : State :=
  s.setRegs fun i => if i.val ≤ x.val then s.readMem (s.effAddr i.val) else s.readV i

/-- The three decimal digits of a byte, hundreds first (R134). -/
def bcdDigits (b : Byte) : List Byte :=
  [BitVec.ofNat 8 (b.toNat / 100), BitVec.ofNat 8 (b.toNat / 10 % 10), BitVec.ofNat 8 (b.toNat % 10)]

/-- `(k <= 15) and (KEYS[k] = 1)` (R151, R152; log 12). -/
def State.keyDown (s : State) (k : Byte) : Bool := decide (k.toNat ≤ 15) && s.keys.getLsbD k.toNat

end Sys2Proof.Machine
end

