-- ==== Sys2Proof/Machine/Flags.lean ====
section
/-! DEFINITION. The values written to `VF` (spec/10_state.md R12) and the two ordered updates of the flag-writing instructions
(spec/41_alu.md R116). -/

namespace Sys2Proof.Machine

/-- A flag as the byte 0 or 1 (R12). -/
def flagByte (c : Bool) : Byte := if c then 1 else 0

/-- The carry of ADD: `V[x] + V[y] > 255` (R118). -/
def carryFlag (a b : Byte) : Bool := decide (a.toNat + b.toNat > 255)

/-- The no-borrow flag of `a - b`: 0 if `a < b`, else 1 (R119, and R121 with the operands exchanged). -/
def noBorrowFlag (a b : Byte) : Bool := !decide (a.toNat < b.toNat)

/-- The low bit, shifted out by SHR (R120). -/
def lowBitFlag (a : Byte) : Bool := a.toNat % 2 == 1

/-- The high bit, shifted out by SHL (R123). -/
def highBitFlag (a : Byte) : Bool := a.toNat / 128 == 1

/-- `(a + b) mod 256` (R112, R118). -/
def addBytes (a b : Byte) : Byte := BitVec.ofNat 8 (a.toNat + b.toNat)

/-- `(a - b) mod 256` (R119, R121). -/
def subBytes (a b : Byte) : Byte := BitVec.ofNat 8 (a.toNat + 256 - b.toNat)

/-- `a div 2` (R120). -/
def shiftRight (a : Byte) : Byte := BitVec.ofNat 8 (a.toNat / 2)

/-- `(a * 2) mod 256` (R123). -/
def shiftLeft (a : Byte) : Byte := BitVec.ofNat 8 (a.toNat * 2)

/-- R116: first `VF <- flag(V[x], V[y])`, then `V[x] <- result(V[x], V[y])` with the operands read again (log 9). -/
def State.flagThenResult (s : State) (x y : Reg) (flag : Byte → Byte → Bool) (result : Byte → Byte → Byte) : State :=
  let s1 := s.writeV vF (flagByte (flag (s.readV x) (s.readV y)))
  s1.writeV x (result (s1.readV x) (s1.readV y))

end Sys2Proof.Machine
end

