-- ==== Sys2Proof/Machine/Alu.lean ====
section
/-! DEFINITION. Register and ALU instructions (spec/41_alu.md). A meaning starts from the state after the advance (R32). -/

namespace Sys2Proof.Machine

/-- R111: `V[x] <- nn`. -/
def execLdimm (x : Reg) (nn : Byte) (s : State) : Host.Outcome State Fault Refusal := .next (s.writeV x nn)

/-- R112: `V[x] <- (V[x] + nn) mod 256`, no flag. -/
def execAddimm (x : Reg) (nn : Byte) (s : State) : Host.Outcome State Fault Refusal :=
  .next (s.writeV x (addBytes (s.readV x) nn))

/-- R113: `V[x] <- V[y]`. -/
def execMov (x y : Reg) (s : State) : Host.Outcome State Fault Refusal := .next (s.writeV x (s.readV y))

/-- R114: `V[x] <- V[x] | V[y]`, no flag. -/
def execOr (x y : Reg) (s : State) : Host.Outcome State Fault Refusal := .next (s.writeV x (s.readV x ||| s.readV y))

/-- R115: `V[x] <- V[x] & V[y]`, no flag. -/
def execAnd (x y : Reg) (s : State) : Host.Outcome State Fault Refusal := .next (s.writeV x (s.readV x &&& s.readV y))

/-- R117: `V[x] <- V[x] ^ V[y]`, no flag. -/
def execXor (x y : Reg) (s : State) : Host.Outcome State Fault Refusal := .next (s.writeV x (s.readV x ^^^ s.readV y))

/-- R118: the carry, then the sum. -/
def execAdd (x y : Reg) (s : State) : Host.Outcome State Fault Refusal :=
  .next (s.flagThenResult x y carryFlag addBytes)

/-- R119: the no-borrow flag, then `V[x] - V[y]`. -/
def execSub (x y : Reg) (s : State) : Host.Outcome State Fault Refusal :=
  .next (s.flagThenResult x y noBorrowFlag subBytes)

/-- R120: the low bit, then `V[x] div 2`; `V[y]` plays no part (log 10). -/
def execShr (x y : Reg) (s : State) : Host.Outcome State Fault Refusal :=
  .next (s.flagThenResult x y (fun a _ => lowBitFlag a) (fun a _ => shiftRight a))

/-- R121: the no-borrow flag of `V[y] - V[x]`, then that difference into `V[x]`. -/
def execRsub (x y : Reg) (s : State) : Host.Outcome State Fault Refusal :=
  .next (s.flagThenResult x y (fun a b => noBorrowFlag b a) (fun a b => subBytes b a))

/-- R123: the high bit, then `(V[x] * 2) mod 256`; `V[y]` plays no part (log 10). -/
def execShl (x y : Reg) (s : State) : Host.Outcome State Fault Refusal :=
  .next (s.flagThenResult x y (fun a _ => highBitFlag a) (fun a _ => shiftLeft a))

/-- R124: `V[x] <- rng() & nn`; exactly one byte is drawn. -/
def execRnd (x : Reg) (nn : Byte) (s : State) : Host.Outcome State Fault Refusal :=
  .next (s.rngStep.writeV x (s.rngByte &&& nn))

end Sys2Proof.Machine
end

