-- ==== Sys2Proof/Machine/Control.lean ====
section
/-! DEFINITION. Control flow (spec/40_control_flow.md). On entry `pc` already holds `a + 2` (R100). -/

namespace Sys2Proof.Machine

/-- R101: StackUnderflow where `sp = 0`, else pop into `pc`. -/
def execRet (s : State) : Host.Outcome State Fault Refusal :=
  .next (if h : 0 < s.sp.val then s.popPc h else s.raise (.stackUnderflow s.instrAddr))

/-- R102: `pc <- nnn`. -/
def execJmp (nnn : Nat) (s : State) : Host.Outcome State Fault Refusal := .next (s.setPc (BitVec.ofNat 16 nnn))

/-- R103: StackOverflow where `sp = 16`, else push the advanced `pc` and go to `nnn`. -/
def execCall (nnn : Nat) (s : State) : Host.Outcome State Fault Refusal :=
  .next (if h : s.sp.val < 16 then (s.push s.pc h).setPc (BitVec.ofNat 16 nnn) else s.raise (.stackOverflow s.instrAddr))

/-- R104: skip if `V[x] = nn`. -/
def execSkeqi (x : Reg) (nn : Byte) (s : State) : Host.Outcome State Fault Refusal := .next (s.skipIf (s.readV x == nn))

/-- R105: skip if `V[x] != nn`. -/
def execSknei (x : Reg) (nn : Byte) (s : State) : Host.Outcome State Fault Refusal := .next (s.skipIf (s.readV x != nn))

/-- R106: skip if `V[x] = V[y]`. -/
def execSkeqr (x y : Reg) (s : State) : Host.Outcome State Fault Refusal := .next (s.skipIf (s.readV x == s.readV y))

/-- R107: skip if `V[x] != V[y]`. -/
def execSkner (x y : Reg) (s : State) : Host.Outcome State Fault Refusal := .next (s.skipIf (s.readV x != s.readV y))

/-- R108: `pc <- V[0] + nnn`, not reduced to 12 bits (log 27). -/
def execJmpoff (nnn : Nat) (s : State) : Host.Outcome State Fault Refusal :=
  .next (s.setPc (BitVec.ofNat 16 ((s.readV 0).toNat + nnn)))

end Sys2Proof.Machine
end

