-- ==== Sys2Proof/Machine/Display.lean ====
section
/-! DEFINITION. Display instructions (spec/43_display.md). -/

namespace Sys2Proof.Machine

/-- R141: every cell 0; `VF` is not written. -/
def execCls (s : State) : Host.Outcome State Fault Refusal := .next (s.setFb Frame.blank)

/-- R143's loops on the machine: the grid and the flag a draw of the `n` bytes at `I` gives. The coordinates are read before
`VF` is written. -/
def State.drawn (s : State) (x y : Reg) (n : Nat) : Frame × Bool :=
  drawSprite (s.readV x).toNat (s.readV y).toNat n (fun r => s.readMem (s.effAddr r)) s.fb

/-- R143: MemOutOfBounds before any cell changes, else XOR the sprite and write the collision flag, always. -/
def execDraw (x y : Reg) (n : Nat) (s : State) : Host.Outcome State Fault Refusal :=
  .next (s.checkRange n ((s.setFb (s.drawn x y n).1).writeV vF (flagByte (s.drawn x y n).2)))

end Sys2Proof.Machine
end

