-- ==== Sys2Proof/Machine/Index.lean ====
section
/-! DEFINITION. Index register and memory instructions (spec/42_index_memory.md). None changes `I` by an access (R137). -/

namespace Sys2Proof.Machine

/-- R131: `I <- nnn`. -/
def execLdidx (nnn : Nat) (s : State) : Host.Outcome State Fault Refusal := .next (s.setIdx (BitVec.ofNat 16 nnn))

/-- R132: `I <- (I + V[x]) mod 65536`, no flag. -/
def execAddidx (x : Reg) (s : State) : Host.Outcome State Fault Refusal :=
  .next (s.setIdx (BitVec.ofNat 16 (s.idx.toNat + (s.readV x).toNat)))

/-- R133: `I <- V[x] * 5`, the whole byte. -/
def execLdfont (x : Reg) (s : State) : Host.Outcome State Fault Refusal :=
  .next (s.setIdx (BitVec.ofNat 16 ((s.readV x).toNat * Config.glyphBytes)))

/-- R134: the three digits of `V[x]` to `I .. I+2`. -/
def execStbcd (x : Reg) (s : State) : Host.Outcome State Fault Refusal :=
  .next (s.checkRange 3 (s.writeMem (s.effAddr 0) (bcdDigits (s.readV x))))

/-- R135: `V[0] .. V[x]` to `I .. I+x`. -/
def execStregs (x : Reg) (s : State) : Host.Outcome State Fault Refusal :=
  .next (s.checkRange (x.val + 1) (s.writeMem (s.effAddr 0) (s.regsUpTo x)))

/-- R136: `V[0] .. V[x]` from `I .. I+x`. -/
def execLdregs (x : Reg) (s : State) : Host.Outcome State Fault Refusal :=
  .next (s.checkRange (x.val + 1) (s.loadRegs x))

end Sys2Proof.Machine
end

