-- ==== Sys2Proof/Machine/KeyTimer.lean ====
section
/-! DEFINITION. Keyboard and timer instructions (spec/44_keyboard_timer.md). -/

namespace Sys2Proof.Machine

/-- R151: skip if the key named by `V[x]` is down. -/
def execSkkey (x : Reg) (s : State) : Host.Outcome State Fault Refusal := .next (s.skipIf (s.keyDown (s.readV x)))

/-- R152: skip if the key named by `V[x]` is not down. -/
def execSknkey (x : Reg) (s : State) : Host.Outcome State Fault Refusal := .next (s.skipIf (!s.keyDown (s.readV x)))

/-- R153: `V[x] <- DT`. -/
def execLddt (x : Reg) (s : State) : Host.Outcome State Fault Refusal := .next (s.writeV x s.dt)

/-- R155: `DT <- V[x]`. -/
def execStdt (x : Reg) (s : State) : Host.Outcome State Fault Refusal := .next (s.setDt (s.readV x))

/-- R156: `ST <- V[x]`. -/
def execStst (x : Reg) (s : State) : Host.Outcome State Fault Refusal := .next (s.setSt (s.readV x))

/-- R154: wait for the host's key, held where it has none yet. -/
def execWaitkey (x : Reg) (s : State) : Host.Outcome State Fault Refusal := .next (s.waitForKey x)

end Sys2Proof.Machine
end

