-- ==== Sys2Proof/Machine/Dispatch.lean ====
section
/-! DEFINITION. The execute step of an iteration (spec/10_state.md R30 step 4): one arm per instruction, on the state after the
advance (R32). -/

namespace Sys2Proof.Machine

def exec (i : Instr) (s : State) : Host.Outcome State Fault Refusal :=
  match i with
  | .cls => Sys2Proof.Machine.execCls s
  | .ret => Sys2Proof.Machine.execRet s
  | .jmp nnn => Sys2Proof.Machine.execJmp nnn s
  | .call nnn => Sys2Proof.Machine.execCall nnn s
  | .skeqi x nn => Sys2Proof.Machine.execSkeqi x nn s
  | .sknei x nn => Sys2Proof.Machine.execSknei x nn s
  | .skeqr x y => Sys2Proof.Machine.execSkeqr x y s
  | .skner x y => Sys2Proof.Machine.execSkner x y s
  | .ldimm x nn => Sys2Proof.Machine.execLdimm x nn s
  | .addimm x nn => Sys2Proof.Machine.execAddimm x nn s
  | .mov x y => Sys2Proof.Machine.execMov x y s
  | .or x y => Sys2Proof.Machine.execOr x y s
  | .and x y => Sys2Proof.Machine.execAnd x y s
  | .xor x y => Sys2Proof.Machine.execXor x y s
  | .add x y => Sys2Proof.Machine.execAdd x y s
  | .sub x y => Sys2Proof.Machine.execSub x y s
  | .shr x y => Sys2Proof.Machine.execShr x y s
  | .rsub x y => Sys2Proof.Machine.execRsub x y s
  | .shl x y => Sys2Proof.Machine.execShl x y s
  | .ldidx nnn => Sys2Proof.Machine.execLdidx nnn s
  | .jmpoff nnn => Sys2Proof.Machine.execJmpoff nnn s
  | .rnd x nn => Sys2Proof.Machine.execRnd x nn s
  | .draw x y n => Sys2Proof.Machine.execDraw x y n s
  | .skkey x => Sys2Proof.Machine.execSkkey x s
  | .sknkey x => Sys2Proof.Machine.execSknkey x s
  | .lddt x => Sys2Proof.Machine.execLddt x s
  | .stdt x => Sys2Proof.Machine.execStdt x s
  | .stst x => Sys2Proof.Machine.execStst x s
  | .addidx x => Sys2Proof.Machine.execAddidx x s
  | .ldfont x => Sys2Proof.Machine.execLdfont x s
  | .stbcd x => Sys2Proof.Machine.execStbcd x s
  | .stregs x => Sys2Proof.Machine.execStregs x s
  | .ldregs x => Sys2Proof.Machine.execLdregs x s
  | .waitkey x => Sys2Proof.Machine.execWaitkey x s

end Sys2Proof.Machine
end

