-- ==== Sys2Proof/Machine/Step.lean ====
section
/-! DEFINITION. One step: one iteration of the run loop (spec/10_state.md R30; spec decision D32), or one host transaction of a
held WAITKEY (spec/60_exceptions.md R187). -/

namespace Sys2Proof.Machine

/-- An iteration from its fetch on (R30): fetch, decode, advance, execute, then poll, present, decay and the quit test. -/
def iterate (s : State) : Host.Outcome State Fault Refusal :=
  match s.fetch with
  | none => .next s.fetchFault
  | some (b1, b2) =>
    match decode b1 b2 with
    | .invalid _ _ => .next s.invalidFault
    | .op i =>
      match exec i s.advance with
      | .next t => .next t.endIteration
      | .fault f => .fault f
      | .refused r => .refused r

/-- R23, R30, R168, R187: a running engine iterates, or goes on waiting where WAITKEY holds it; a halted one changes nothing; a
faulted one takes no step and answers its fault value (log 22). -/
def step (s : State) : Host.Outcome State Fault Refusal :=
  match s.run with
  | .running =>
    match s.hold with
    | none => iterate s
    | some x => .next (s.waitForKey x).endIteration
  | .halted => .next s
  | .faulted f => .fault f

/-- The instruction whose table word is `w` placed where the next step fetches it (R43, R60). -/
def State.withFetchWord (s : State) (nbits w : Nat) : State := placeWord s (BitVec.ofNat 16 (w % 2 ^ nbits))

end Sys2Proof.Machine
end

