-- ==== Sys2Proof/Machine/Disassembler.lean ====
section
/-! DEFINITION. The disassembler, the second user of the decoder (spec/30_encoding.md R80 to R88): three passes over a program
image, text out. It is software; no rule of the engine depends on it (spec/00_scope.md R2). -/

namespace Sys2Proof.Machine

/-- `HEADER_LINE` (R84; spec decision D28; log 26). -/
def headerLine : String := "; octochip disassembly"

/-- Pass 1 (R81): the image two bytes at a time from 0x200, a last byte without a pair dropped. -/
def listingFrom : Nat → List Byte → List (Nat × Operation)
  | a, b1 :: b2 :: rest => (a, decode b1 b2) :: listingFrom (a + 2) rest
  | _, [_] => []
  | _, [] => []

/-- The entries of an image (R81: addresses begin at 0x200). -/
def listing (image : List Byte) : List (Nat × Operation) := listingFrom 0x200 image

/-- Add a target to a namespace unless it is there; its place in the list, from 0, is the number of its name (R82). -/
def noteTarget (targets : List Nat) (t : Nat) : List Nat := if t ∈ targets then targets else targets ++ [t]

/-- The jump namespace: the targets of JMP in order of first appearance (R82, R86). -/
def jumpTargets (entries : List (Nat × Operation)) : List Nat :=
  entries.foldl (fun ts e => match e.2 with | .op (.jmp t) => noteTarget ts t | _ => ts) []

/-- The call namespace, with a counter of its own (R82). -/
def callTargets (entries : List (Nat × Operation)) : List Nat :=
  entries.foldl (fun ts e => match e.2 with | .op (.call t) => noteTarget ts t | _ => ts) []

/-- One upper-case hexadecimal digit (R84). -/
def hexDigit (n : Nat) : Char := (['0', '1', '2', '3', '4', '5', '6', '7', '8', '9', 'A', 'B', 'C', 'D', 'E', 'F'] : List Char).getD n '0'

/-- The low `k` hexadecimal digits of a number, most significant first (R83). -/
def hexDigits : Nat → Nat → List Char
  | 0, _ => []
  | k + 1, n => hexDigit (n / 16 ^ k % 16) :: hexDigits k n

/-- `k` hexadecimal digits as text. -/
def hexText (k n : Nat) : String := String.ofList (hexDigits k n)

/-- `Vx`, with one hexadecimal digit (R83). -/
def regText (x : Reg) : String := "V" ++ hexText 1 x.val

/-- `decimal(n)` (R82). -/
def decimalText (n : Nat) : String := toString n

/-- A target's name in a namespace, if it has one (R82). -/
def labelIn (stem : String) (targets : List Nat) (t : Nat) : Option String :=
  if t ∈ targets then some (stem ++ decimalText (targets.idxOf t)) else none

/-- `@0xNNN` (R83). -/
def rawAddress (t : Nat) : String := "@0x" ++ hexText 3 t

/-- The operand text of an instruction (R83), with the space before it. -/
def operandText (jumps calls : List Nat) : Instr → String
  | .cls | .ret => ""
  | .jmp t => " " ++ (labelIn "label" jumps t).getD (rawAddress t)
  | .call t => " " ++ (labelIn "subroutine" calls t).getD (rawAddress t)
  | .ldidx t | .jmpoff t => " " ++ rawAddress t
  | .skeqi x nn | .sknei x nn | .ldimm x nn | .addimm x nn | .rnd x nn =>
    " " ++ regText x ++ ", 0x" ++ hexText 2 nn.toNat
  | .skeqr x y | .skner x y | .mov x y | .or x y | .and x y | .xor x y | .add x y | .sub x y | .shr x y | .rsub x y
  | .shl x y => " " ++ regText x ++ ", " ++ regText y
  | .draw x y n => " " ++ regText x ++ ", " ++ regText y ++ ", 0x" ++ hexText 1 n
  | .skkey x | .sknkey x | .lddt x | .stdt x | .stst x | .addidx x | .ldfont x | .stbcd x | .stregs x | .ldregs x
  | .waitkey x => " " ++ regText x

/-- The line of an entry, indented by four spaces; an `Invalid` entry is its four hexadecimal digits (R83, R84). -/
def entryLine (jumps calls : List Nat) : Operation → String
  | .op i => "    " ++ i.mnemonic ++ operandText jumps calls i
  | .invalid b1 b2 => "    " ++ hexText 2 b1.toNat ++ hexText 2 b2.toNat

/-- The label lines of an address, the jump label's first (R84). -/
def labelLines (jumps calls : List Nat) (a : Nat) : List String :=
  ((labelIn "label" jumps a).toList ++ (labelIn "subroutine" calls a).toList).map (· ++ ":")

/-- Passes 2 and 3 (R82, R83): the header line, then for each entry its label lines and its own line. -/
def disassemble (image : List Byte) : List String :=
  let entries := listing image
  let jumps := jumpTargets entries
  let calls := callTargets entries
  headerLine :: entries.flatMap fun e => labelLines jumps calls e.1 ++ [entryLine jumps calls e.2]

/-- The text: each line ends with a line feed (R84). -/
def disassembly (image : List Byte) : String := String.join ((disassemble image).map (· ++ "\n"))

end Sys2Proof.Machine
end

