-- ==== Sys2Proof/Safety.lean ====
section
/-! DEFINITION. What counts as a safe run, the invariant of the machine, and the words the statements use: which part of the
state is unchanged, and which cells a sprite covers. -/

namespace Sys2Proof.Machine

/-- Not faulted: "`Faulted` is a terminal state and is never a successful end of a run" (R168). -/
def State.safe (s : State) : Bool :=
  match s.run with
  | .running => true
  | .halted => true
  | .faulted _ => false

/-- The invariant every step keeps: memory in canonical form (log 32), `pc` never above 0x10FE (R34), every stack slot a value
CALL pushed or 0, at most 4096 (R34), and WAITKEY holds a running engine only (R187). -/
structure State.Inv (s : State) : Prop where
  memCanonical : s.mem.wf = true
  pcBound : s.pc.toNat ≤ 0x10FE
  slotBound : ∀ j : Fin 16, s.stk[j.val].toNat ≤ 4096
  holdRuns : s.hold.isSome = true → s.run = .running

/-- The parts of the state (R25; `host` is the model's record of the host's answers, log 16). -/
inductive Part where
  | regs
  | idx
  | pc
  | stack
  | dt
  | st
  | mem
  | fb
  | keys
  | rng
  | run
  | hold
  | host
  deriving DecidableEq, Repr

/-- A part is the same in two states. Memory is compared by reading every address. -/
def Part.same (s t : State) : Part → Prop
  | .regs => ∀ r, t.readV r = s.readV r
  | .idx => t.idx = s.idx
  | .pc => t.pc = s.pc
  | .stack => t.stk = s.stk ∧ t.sp = s.sp
  | .dt => t.dt = s.dt
  | .st => t.st = s.st
  | .mem => ∀ a, t.readMem a = s.readMem a
  | .fb => t.fb = s.fb
  | .keys => t.keys = s.keys
  | .rng => t.rng = s.rng
  | .run => t.run = s.run
  | .hold => t.hold = s.hold
  | .host => t.inputs = s.inputs ∧ t.draws = s.draws

/-- Every part is unchanged but those named. -/
def KeepsAllBut (ps : List Part) (s t : State) : Prop := ∀ p, p ∉ ps → p.same s t

/-- Every general register is unchanged but those named. -/
def RegsKeptBut (rs : List Reg) (s t : State) : Prop := ∀ r, r ∉ rs → t.readV r = s.readV r

/-- Every byte of memory outside `a .. a + n - 1` is unchanged. -/
def BytesKeptOutside (a n : Nat) (s t : State) : Prop := ∀ b, (b < a ∨ a + n ≤ b) → t.readMem b = s.readMem b

/-- The sprite of `n` rows at `I`, drawn at `(V[x], V[y])`, has a 1 on the cell `(row, col)` (R142). -/
def SpriteCovers (s : State) (x y : Reg) (n row col : Nat) : Prop :=
  ∃ r c, r < n ∧ c < 8 ∧ (s.readMem (s.idx.toNat + r)).getLsbD (7 - c) = true ∧
    ((s.readV x).toNat + c) % 64 = col ∧ ((s.readV y).toNat + r) % 32 = row

/-- Every address of the range `I .. I + len - 1` is in memory, or the range is empty (R44). -/
def RangeInside (s : State) (len : Nat) : Prop := len = 0 ∨ s.idx.toNat + len - 1 ≤ 4095

/-- The target the instruction names is even (R46): the condition on JMP, CALL and JMPOFF under which `pc` stays even. -/
def EvenTarget (s : State) : Instr → Prop
  | .jmp nnn | .call nnn => nnn % 2 = 0
  | .jmpoff nnn => ((s.readV 0).toNat + nnn) % 2 = 0
  | _ => True

/-- `pc` and every stack slot are even. -/
def EvenPc (s : State) : Prop := s.pc.toNat % 2 = 0 ∧ ∀ j : Fin 16, s.stk[j.val].toNat % 2 = 0

/-- The ticks the free host clock gives in the `m` draws from draw `k` on. -/
def ticksFrom (k : Nat) : Nat → Nat
  | 0 => 0
  | m + 1 => ticksFrom k m + Config.hostTicks (k + m)

/-- The fairness of the host's clock, a named assumption (R178): over an infinite run the sum of the ticks is unbounded. No
statement and no definition of the model rests on it. -/
def HostClockFair : Prop := ∀ k n, ∃ m, n ≤ ticksFrom k m

end Sys2Proof.Machine
end

