-- ==== Sys2Proof/Certificates/Slice0/Obligations.lean ====
section
/-! DEFINITION. The statements for the provers. A meaning starts from the state `s` after the advance, where `s.pc` holds
`a + 2` (spec/10_state.md R32). That an instruction writes nothing but what its rule names is spec decision D14 (log 11); every
clause `KeepsAllBut` about one instruction rests on it. The encodings of 29 of the 34 rows are spec decision D1 (log 1). -/

open Sys2Proof Sys2Proof.Machine

/-! ### Encoding -/

/-- Every well-formed instruction is read back from its own word, with every operand (R61, R62, R66). -/
def Obligations.DecodeOfEncodeIsTheInstruction : Prop :=
  ∀ i : Instr, i.wellFormed = true → decodeWord (encode i) = .op i

/-- A word that decodes to an instruction is that instruction's word, and the instruction is well formed: the decoder's result
keeps every bit (R73). -/
def Obligations.EncodeOfDecodeIsTheWord : Prop :=
  ∀ (w : Word) (i : Instr), decodeWord w = .op i → i.wellFormed = true ∧ encode i = w

/-- Two different pairs of bytes never decode to the same result, `Invalid` included (R73). -/
def Obligations.DecodeIsInjective : Prop :=
  ∀ b1 b2 c1 c2 : Byte, decode b1 b2 = decode c1 c2 → b1 = c1 ∧ b2 = c2

/-- The `Invalid` words are exactly those of the table of R67, and `Invalid` keeps both raw bytes. The table's selectors are spec
decisions D1 to D3 (log 1, log 2). -/
def Obligations.InvalidWordsAreExactlyTheTabled : Prop :=
  ∀ b1 b2 : Byte,
    ((∃ c1 c2, decode b1 b2 = .invalid c1 c2) ↔
      (b1.toNat / 16 = 0 ∧ ¬(b1 = 0x00 ∧ (b2 = 0xE0 ∨ b2 = 0xEE))) ∨
      (b1.toNat / 16 = 5 ∧ b2.toNat % 16 ≠ 0) ∨
      (b1.toNat / 16 = 8 ∧ b2.toNat % 16 ∈ [8, 9, 10, 11, 12, 13, 15]) ∨
      (b1.toNat / 16 = 9 ∧ b2.toNat % 16 ≠ 0) ∨
      (b1.toNat / 16 = 14 ∧ b2 ∉ [0x9E, 0xA1]) ∨
      (b1.toNat / 16 = 15 ∧ b2 ∉ [0x07, 0x0A, 0x15, 0x18, 0x1E, 0x29, 0x33, 0x55, 0x65])) ∧
    (∀ c1 c2, decode b1 b2 = .invalid c1 c2 → c1 = b1 ∧ c2 = b2)

/-- A word decodes to the opcode of a row of the opcode map exactly when `W & mask = match` (R66). The patterns are spec
decision D1 (log 1). -/
def Obligations.DecoderFollowsTheOpcodeMap : Prop :=
  ∀ w : Word, ∀ r ∈ opcodeTable,
    (w.toNat &&& r.mask = r.pattern ↔ ∃ i, decodeWord w = .op i ∧ i.mnemonic = r.mnemonic)

/-- The words the source shows decode to the operations it names, and `5123` to `Invalid` (95_test_vectors.md S1 to S4, S6). -/
def Obligations.ShownWordsDecode : Prop :=
  decode 0x00 0xE0 = .op .cls ∧ decode 0x00 0xEE = .op .ret ∧ decode 0x12 0x34 = .op (.jmp 0x234) ∧
    decode 0x80 0x14 = .op (.add 0 1) ∧ decode 0x51 0x23 = .invalid 0x51 0x23

/-! ### Reset -/

/-- The state right after reset, all of R35's table but `KEYS`, which the host chooses (log 21). Memory outside font and image,
the grid and `RUN` are spec decisions D20, D21, D24 (log 18, log 19, log 22); the font bytes are whatever the table `font` holds
(log 17), the generator's state is the free value `RNG_SEED` (log 14). -/
def Obligations.ResetStateIsAsTabled : Prop :=
  (∀ r, State.reset.readV r = 0) ∧ State.reset.idx = 0 ∧ State.reset.pc = 0x200 ∧ State.reset.sp = 0 ∧
    (∀ j : Fin 16, State.reset.stk[j.val] = 0) ∧ State.reset.dt = 0 ∧ State.reset.st = 0 ∧
    (∀ a, a < 80 → State.reset.readMem a = font.getD a 0) ∧ (∀ a, 80 ≤ a → a < 4096 → State.reset.readMem a = 0) ∧
    (∀ row col, State.reset.fb.cell row col = false) ∧ State.reset.rng = Config.rngSeed ∧ State.reset.run = .running

/-- Reset with an image of at most 3584 bytes loads it verbatim at 0x200 and leaves everything else as reset leaves it; a longer
one is refused (R190, R191). The refusal and the zeroed rest are spec decision D20 (log 18); the 0 above address 4095, where
there is no memory, is the model's own (log 32). -/
def Obligations.ImageIsLoadedVerbatimOrRefused : Prop :=
  ∀ image : List Byte,
    (image.length ≤ 3584 → ∃ s, construct image = .next s ∧
      (∀ m, m < image.length → s.readMem (0x200 + m) = image.getD m 0) ∧
      (∀ a, a < 80 → s.readMem a = font.getD a 0) ∧
      (∀ a, 80 ≤ a → (a < 0x200 ∨ 0x200 + image.length ≤ a) → s.readMem a = 0) ∧
      KeepsAllBut [.mem] State.reset s ∧ s.Inv) ∧
    (3584 < image.length → construct image = .refused (.imageTooLarge image.length))

/-- The invariant holds at reset. -/
def Obligations.InvariantHoldsAtReset : Prop := State.reset.Inv

/-! ### The iteration -/

/-- A step of a running engine that is not held and whose bytes at `pc` decode to `i` is the meaning of `i` on the advanced state,
followed by poll, present, decay and the quit test (R30, R31, R32). -/
def Obligations.StepRunsTheDecodedInstruction : Prop :=
  ∀ (s : State) (i : Instr), s.run = .running → s.hold = none → s.pc.toNat ≤ 4094 →
    decode (s.readMem s.pc.toNat) (s.readMem (s.pc.toNat + 1)) = .op i →
    step s = match exec i (s.setPc (s.pc + 2)) with
      | .next t => .next t.endIteration
      | .fault f => .fault f
      | .refused r => .refused r

/-- `withFetchWord` places exactly the instruction of a valid table word: the next step fetches it (R43, R60). The placement
itself is the model's (log 31). -/
def Obligations.PlacedWordIsFetched : Prop :=
  ∀ (s : State) (w : Nat) (i : Instr), decodeTableWord 16 w = some i →
    ∃ b1 b2, (s.withFetchWord 16 w).fetch = some (b1, b2) ∧ decode b1 b2 = .op i ∧
      (s.withFetchWord 16 w).run = .running ∧ (s.withFetchWord 16 w).hold = none

/-- After a fault-free execute: `KEYS` is the mask of the poll, the quit request decides `RUN`, one host record is used up, a
listed one or, with none listed, one of the free ones that `draws` numbers (log 16), and every other part but the timers is as
execute left it (R30, R33, R172). `RUN` and the order of the quit test are spec decisions D24 and D31 (log 22, log 29). -/
def Obligations.EndOfIterationPollsAndTestsQuit : Prop :=
  ∀ u : State, u.run = .running → u.hold = none →
    u.endIteration.keys = u.hostInput.keys ∧
    u.endIteration.run = (if u.hostInput.quit = true then .halted else .running) ∧
    u.endIteration.inputs = u.inputs.tail ∧ u.endIteration.draws = u.draws + 1 ∧
    KeepsAllBut [.keys, .run, .dt, .st, .host] u u.endIteration

/-- Every fault-free iteration ends with the decay of both timers by the same `t`, saturating at zero (R176). -/
def Obligations.TimersDecaySaturating : Prop :=
  ∀ (s : State) (i : Instr) (u : State), s.run = .running → s.hold = none → s.pc.toNat ≤ 4094 →
    decode (s.readMem s.pc.toNat) (s.readMem (s.pc.toNat + 1)) = .op i →
    exec i (s.setPc (s.pc + 2)) = .next u → u.run = .running → u.hold = none →
    ∃ t, step s = .next t ∧ t.dt.toNat = max 0 ((u.dt.toNat : Int) - s.hostInput.ticks) ∧
      t.st.toNat = max 0 ((u.st.toNat : Int) - s.hostInput.ticks) ∧ t.dt.toNat ≤ u.dt.toNat ∧ t.st.toNat ≤ u.st.toNat

/-- Every step keeps the invariant: memory stays canonical, `pc` stays at or below 0x10FE, every stacked address stays at or below
4096, and only a running engine is held (R34; the canonical form is the model's, log 32). -/
def Obligations.StepKeepsTheInvariant : Prop :=
  ∀ s t : State, s.Inv → step s = .next t → t.Inv

/-- `pc` and every stacked address stay even as long as every target of a JMP, CALL or JMPOFF that is executed is even (R46). That
nothing enforces it is spec decision D6 (log 4). -/
def Obligations.PcStaysEvenUnderEvenTargets : Prop :=
  ∀ s t : State, EvenPc s →
    (∀ i, decode (s.readMem s.pc.toNat) (s.readMem (s.pc.toNat + 1)) = .op i → EvenTarget s i) →
    step s = .next t → EvenPc t

/-- A faulted machine takes no further step: however many are asked for, no next state comes of it, running or not (R168). -/
def Obligations.FaultedMachineTakesNoStep : Prop :=
  ∀ (s : State) (f : Fault), s.run = .faulted f →
    ∀ n (t : State), Host.Core.run Sys2Proof.core (n + 1) s ≠ .next t

/-- A halted machine changes no state, and a faulted one answers its fault value, however many steps are asked for (R23; that
`RUN` exists is spec decision D24, and how a stopped machine shows as an outcome is the model's choice, log 22). -/
def Obligations.StoppedMachineStaysStopped : Prop :=
  (∀ s : State, s.run = .halted → ∀ n, Host.Core.run Sys2Proof.core n s = .next s) ∧
  (∀ (s : State) (f : Fault), s.run = .faulted f → ∀ n, Host.Core.run Sys2Proof.core (n + 1) s = .fault f)

/-- A running engine halts only at a quit request; a quit request halts it after a fault-free iteration; and a fault of execute
wins over it: the step then ends with that fault, whatever the host asks (R169, R172; spec decisions D24, D31, log 22, log 29). -/
def Obligations.QuitHaltsAfterFaultFreeIteration : Prop :=
  (∀ s t : State, s.run = .running → step s = .next t →
    (t.run = .halted → s.hostInput.quit = true) ∧
    (s.hostInput.quit = true → t.run = .halted ∨ ∃ f, t.run = .faulted f)) ∧
  (∀ (s : State) (i : Instr) (u : State) (f : Fault), s.run = .running → s.hold = none → s.pc.toNat ≤ 4094 →
    decode (s.readMem s.pc.toNat) (s.readMem (s.pc.toNat + 1)) = .op i → exec i (s.setPc (s.pc + 2)) = .next u →
    u.run = .faulted f → ∃ t, step s = .next t ∧ t.run = .faulted f)

/-! ### Faults -/

/-- The fetch raises PcOutOfBounds, with that `pc` recorded, exactly when `pc` is above 4094, and nothing but `RUN` changes (R31,
R161). The condition and its moment are spec decision D7, the address D8 (log 5, log 6). -/
def Obligations.FetchFaultsExactlyAbove4094 : Prop :=
  ∀ s : State, s.run = .running → s.hold = none →
    ((∃ t a, step s = .next t ∧ t.run = .faulted (.pcOutOfBounds a)) ↔ 4094 < s.pc.toNat) ∧
    (4094 < s.pc.toNat → ∃ t, step s = .next t ∧ t.run = .faulted (.pcOutOfBounds s.pc) ∧ KeepsAllBut [.run] s t)

/-- StackOverflow is raised by CALL exactly when `sp = 16` on entry; the return address is then not stored and `pc` is not set to
the target (R162). -/
def Obligations.StackOverflowExactlyOnAFullStack : Prop :=
  ∀ (i : Instr) (s : State), s.run = .running →
    ∃ t, exec i s = .next t ∧
      ((∃ a, t.run = .faulted (.stackOverflow a)) ↔ (∃ nnn, i = .call nnn) ∧ s.sp.val = 16) ∧
      ((∃ a, t.run = .faulted (.stackOverflow a)) → t.stk = s.stk ∧ t.sp = s.sp ∧ t.pc = s.pc)

/-- StackUnderflow is raised by RET exactly when `sp = 0` on entry; a program that consists of a RET alone faults so at its first
step (R163). -/
def Obligations.StackUnderflowExactlyOnAnEmptyStack : Prop :=
  (∀ (i : Instr) (s : State), s.run = .running →
    ∃ t, exec i s = .next t ∧ ((∃ a, t.run = .faulted (.stackUnderflow a)) ↔ i = .ret ∧ s.sp.val = 0)) ∧
  (∃ s t a, construct [0x00, 0xEE] = .next s ∧ step s = .next t ∧ t.run = .faulted (.stackUnderflow a))

/-- InvalidOpcode is raised exactly when the fetched bytes decode to `Invalid`; the fault leaves both bytes in memory, where they
can be read back (R164). -/
def Obligations.InvalidOpcodeExactlyOnInvalidWords : Prop :=
  ∀ s : State, s.run = .running → s.hold = none → s.pc.toNat ≤ 4094 →
    ((∃ t a, step s = .next t ∧ t.run = .faulted (.invalidOpcode a)) ↔
      ∃ b1 b2, decode (s.readMem s.pc.toNat) (s.readMem (s.pc.toNat + 1)) = .invalid b1 b2) ∧
    (∀ t a, step s = .next t → t.run = .faulted (.invalidOpcode a) →
      t.readMem s.pc.toNat = s.readMem s.pc.toNat ∧ t.readMem (s.pc.toNat + 1) = s.readMem (s.pc.toNat + 1) ∧
      decode (t.readMem s.pc.toNat) (t.readMem (s.pc.toNat + 1)) =
        .invalid (t.readMem s.pc.toNat) (t.readMem (s.pc.toNat + 1)))

/-- STBCD, STREGS, LDREGS and DRAW raise MemOutOfBounds exactly when their range passes 4095, before any effect (R44, R165). The
fault is spec decision D10 (log 7), the recorded address D8 (log 6). -/
def Obligations.MemOutOfBoundsExactlyPast4095 : Prop :=
  ∀ (x y : Reg) (n : Nat) (s : State), s.run = .running →
    (∃ t, exec (.stbcd x) s = .next t ∧ ((∃ f, t.run = .faulted f) ↔ s.idx.toNat + 2 > 4095) ∧
      (s.idx.toNat + 2 > 4095 → t.run = .faulted (.memOutOfBounds (s.pc - 2)) ∧ KeepsAllBut [.run] s t)) ∧
    (∃ t, exec (.stregs x) s = .next t ∧ ((∃ f, t.run = .faulted f) ↔ s.idx.toNat + x.val > 4095) ∧
      (s.idx.toNat + x.val > 4095 → t.run = .faulted (.memOutOfBounds (s.pc - 2)) ∧ KeepsAllBut [.run] s t)) ∧
    (∃ t, exec (.ldregs x) s = .next t ∧ ((∃ f, t.run = .faulted f) ↔ s.idx.toNat + x.val > 4095) ∧
      (s.idx.toNat + x.val > 4095 → t.run = .faulted (.memOutOfBounds (s.pc - 2)) ∧ KeepsAllBut [.run] s t)) ∧
    (∃ t, exec (.draw x y n) s = .next t ∧ ((∃ f, t.run = .faulted f) ↔ 1 ≤ n ∧ s.idx.toNat + n - 1 > 4095) ∧
      (1 ≤ n ∧ s.idx.toNat + n - 1 > 4095 →
        t.run = .faulted (.memOutOfBounds (s.pc - 2)) ∧ KeepsAllBut [.run] s t))

/-- No instruction but CALL, RET, STBCD, STREGS, LDREGS and DRAW can fault (R160). -/
def Obligations.OtherInstructionsNeverFault : Prop :=
  ∀ (i : Instr) (s : State), s.run = .running →
    (∀ nnn, i ≠ .call nnn) → i ≠ .ret → (∀ x, i ≠ .stbcd x) → (∀ x, i ≠ .stregs x) → (∀ x, i ≠ .ldregs x) →
    (∀ x y n, i ≠ .draw x y n) →
    ∃ t, exec i s = .next t ∧ ∀ f, t.run ≠ .faulted f

/-- A fault is precise: the faulting step changes nothing but `RUN` and perhaps `pc`, takes no answer from the host, and records
the address its fetch was made from (R166, R167). Spec decisions D8, D27 and D32 (log 6, log 25, log 30). -/
def Obligations.FaultIsPreciseAndNamesItsFetch : Prop :=
  ∀ (s t : State) (f : Fault), s.run = .running → step s = .next t → t.run = .faulted f →
    KeepsAllBut [.run, .pc] s t ∧ f.addr = s.pc ∧ (t.pc = s.pc ∨ t.pc = s.pc + 2)

/-! ### Control flow -/

/-- JMP: `pc` is the target; no flag, no fault; a target above 4094 leaves nothing to fetch (R102). -/
def Obligations.JmpGoesToItsTarget : Prop :=
  ∀ (nnn : Nat) (s : State), nnn < 4096 →
    decodeWord (BitVec.ofNat 16 (0x1000 + nnn)) = .op (.jmp nnn) ∧
    ∃ t, exec (.jmp nnn) s = .next t ∧ t.pc.toNat = nnn ∧ t.readV 15 = s.readV 15 ∧ t.run = s.run ∧
      (4094 < nnn → t.fetch = none)

/-- CALL on a stack that is not full pushes the advanced `pc` and goes to the target; nothing else changes (R103). The `sp`
convention is spec decision D11 (log 8), the frame D14 (log 11). -/
def Obligations.CallPushesTheReturnAddress : Prop :=
  ∀ (nnn : Nat) (s : State), nnn < 4096 → s.sp.val < 16 →
    ∃ t, exec (.call nnn) s = .next t ∧ t.pc.toNat = nnn ∧ t.sp.val = s.sp.val + 1 ∧
      (∀ j : Fin 16, t.stk[j.val] = if j.val = s.sp.val then s.pc else s.stk[j.val]) ∧
      KeepsAllBut [.pc, .stack] s t

/-- RET on a stack that is not empty takes the last address pushed and keeps the slot; nothing else changes (R101). Spec
decisions D11 and D14 (log 8, log 11). -/
def Obligations.RetPopsTheLastAddress : Prop :=
  ∀ (s : State) (j : Fin 16), s.sp.val = j.val + 1 →
    ∃ t, exec .ret s = .next t ∧ t.sp.val = j.val ∧ t.pc = s.stk[j.val] ∧ t.stk = s.stk ∧ KeepsAllBut [.pc, .stack] s t

/-- A RET that meets the stack a CALL left resumes at the instruction after the CALL, with the stack pointer the CALL found
(R101, R103: "RET resumes at the instruction after the CALL"). -/
def Obligations.RetResumesAfterTheCall : Prop :=
  ∀ (nnn : Nat) (s : State) (w : Word), s.sp.val < 16 →
    ∃ t u, exec (.call nnn) s = .next t ∧ exec .ret (t.setPc w) = .next u ∧ u.pc = s.pc ∧ u.sp = s.sp

/-- The four compare-and-skip instructions add 2 to the advanced `pc` exactly on their condition and change nothing else (R104 to
R107; frame D14, log 11). -/
def Obligations.CompareSkipsAddTwo : Prop :=
  ∀ (x y : Reg) (nn : Byte) (s : State),
    (∃ t, exec (.skeqi x nn) s = .next t ∧ KeepsAllBut [.pc] s t ∧
      t.pc = if (s.readV x).toNat = nn.toNat then s.pc + 2 else s.pc) ∧
    (∃ t, exec (.sknei x nn) s = .next t ∧ KeepsAllBut [.pc] s t ∧
      t.pc = if (s.readV x).toNat = nn.toNat then s.pc else s.pc + 2) ∧
    (∃ t, exec (.skeqr x y) s = .next t ∧ KeepsAllBut [.pc] s t ∧
      t.pc = if (s.readV x).toNat = (s.readV y).toNat then s.pc + 2 else s.pc) ∧
    (∃ t, exec (.skner x y) s = .next t ∧ KeepsAllBut [.pc] s t ∧
      t.pc = if (s.readV x).toNat = (s.readV y).toNat then s.pc else s.pc + 2)

/-- JMPOFF goes to `V0 + nnn`, not reduced to 12 bits, and changes nothing else (R108; spec decisions D29 and D14, log 27,
log 11). -/
def Obligations.JmpoffAddsV0WithoutReduction : Prop :=
  ∀ (nnn : Nat) (s : State), nnn < 4096 →
    ∃ t, exec (.jmpoff nnn) s = .next t ∧ t.pc.toNat = (s.readV 0).toNat + nnn ∧ KeepsAllBut [.pc] s t

/-- JMP changes `pc` alone and CLS the grid alone (spec decision D14, log 11). -/
def Obligations.JmpChangesPcAloneAndClsTheGridAlone : Prop :=
  ∀ (nnn : Nat) (s : State),
    (∃ t, exec (.jmp nnn) s = .next t ∧ KeepsAllBut [.pc] s t) ∧ (∃ t, exec .cls s = .next t ∧ KeepsAllBut [.fb] s t)

/-- Every way a step changes `pc` (R109), from the address `a` of an instruction that does not fault: to `a + 2`; to `a + 4` by a
skip; to the field of JMP or CALL; to `V0 + nnn` by JMPOFF; to a stack slot by RET. -/
def Obligations.EveryWayThePcChanges : Prop :=
  ∀ (s t : State) (i : Instr), s.run = .running → s.hold = none → s.pc.toNat ≤ 4094 →
    decode (s.readMem s.pc.toNat) (s.readMem (s.pc.toNat + 1)) = .op i → step s = .next t →
    t.pc.toNat = s.pc.toNat + 2 ∨
    (t.pc.toNat = s.pc.toNat + 4 ∧ ((∃ x nn, i = .skeqi x nn ∨ i = .sknei x nn) ∨
      (∃ x y, i = .skeqr x y ∨ i = .skner x y) ∨ (∃ x, i = .skkey x ∨ i = .sknkey x))) ∨
    (∃ nnn, (i = .jmp nnn ∨ i = .call nnn) ∧ t.pc.toNat = nnn) ∨
    (∃ nnn, i = .jmpoff nnn ∧ t.pc.toNat = (s.readV 0).toNat + nnn) ∨
    (i = .ret ∧ ∃ j : Fin 16, t.pc = s.stk[j.val])

/-! ### Registers and arithmetic -/

/-- LDIMM loads `nn`; ADDIMM adds it modulo 256 and writes no flag; nothing else changes (R111, R112; frame D14, log 11). -/
def Obligations.LoadAndAddImmediate : Prop :=
  ∀ (x : Reg) (nn : Byte) (s : State),
    (∃ t, exec (.ldimm x nn) s = .next t ∧ (t.readV x).toNat = nn.toNat ∧ RegsKeptBut [x] s t ∧ KeepsAllBut [.regs] s t) ∧
    (∃ t, exec (.addimm x nn) s = .next t ∧ (t.readV x).toNat = ((s.readV x).toNat + nn.toNat) % 256 ∧
      RegsKeptBut [x] s t ∧ KeepsAllBut [.regs] s t)

/-- MOV copies; OR, AND and XOR work bit by bit; none writes a flag or anything but `V[x]` (R113, R114, R115, R117; frame D14,
log 11). -/
def Obligations.MoveAndBitwiseOperations : Prop :=
  ∀ (x y : Reg) (s : State),
    (∃ t, exec (.mov x y) s = .next t ∧ t.readV x = s.readV y ∧ RegsKeptBut [x] s t ∧ KeepsAllBut [.regs] s t) ∧
    (∃ t, exec (.or x y) s = .next t ∧
      (∀ k, (t.readV x).getLsbD k = ((s.readV x).getLsbD k || (s.readV y).getLsbD k)) ∧
      RegsKeptBut [x] s t ∧ KeepsAllBut [.regs] s t) ∧
    (∃ t, exec (.and x y) s = .next t ∧
      (∀ k, (t.readV x).getLsbD k = ((s.readV x).getLsbD k && (s.readV y).getLsbD k)) ∧
      RegsKeptBut [x] s t ∧ KeepsAllBut [.regs] s t) ∧
    (∃ t, exec (.xor x y) s = .next t ∧
      (∀ k, (t.readV x).getLsbD k = ((s.readV x).getLsbD k ^^ (s.readV y).getLsbD k)) ∧
      RegsKeptBut [x] s t ∧ KeepsAllBut [.regs] s t)

/-- ADD: `VF` is the carry, then `V[x]` is the sum modulo 256 of the operands read again after the flag is written; every
register form, `VF` included (R118). The order is spec decision D12 (log 9), the frame D14 (log 11). -/
def Obligations.AddWritesCarryThenSum : Prop :=
  ∀ (x y : Reg) (s : State),
    let c := if (s.readV x).toNat + (s.readV y).toNat > 255 then 1 else 0
    ∃ t, exec (.add x y) s = .next t ∧
      (t.readV x).toNat = ((if x = 15 then c else (s.readV x).toNat) + (if y = 15 then c else (s.readV y).toNat)) % 256 ∧
      (x ≠ 15 → (t.readV 15).toNat = c) ∧ RegsKeptBut [x, 15] s t ∧ KeepsAllBut [.regs] s t

/-- SUB and RSUB: `VF` is 1 exactly when there is no borrow, then `V[x]` is the difference modulo 256 of the operands read again;
every register form (R119, R121). Spec decisions D12 and D14 (log 9, log 11). -/
def Obligations.SubtractionsWriteNoBorrowThenDifference : Prop :=
  ∀ (x y : Reg) (s : State),
    (let nb := if (s.readV x).toNat < (s.readV y).toNat then 0 else 1
     ∃ t, exec (.sub x y) s = .next t ∧
      ((t.readV x).toNat : Int) =
        ((if x = 15 then nb else (s.readV x).toNat : Int) - (if y = 15 then nb else (s.readV y).toNat)) % 256 ∧
      (x ≠ 15 → ((t.readV 15).toNat : Int) = nb) ∧ RegsKeptBut [x, 15] s t ∧ KeepsAllBut [.regs] s t) ∧
    (let nb := if (s.readV x).toNat > (s.readV y).toNat then 0 else 1
     ∃ t, exec (.rsub x y) s = .next t ∧
      ((t.readV x).toNat : Int) =
        ((if y = 15 then nb else (s.readV y).toNat : Int) - (if x = 15 then nb else (s.readV x).toNat)) % 256 ∧
      (x ≠ 15 → ((t.readV 15).toNat : Int) = nb) ∧ RegsKeptBut [x, 15] s t ∧ KeepsAllBut [.regs] s t)

/-- SHR and SHL: `VF` is the bit shifted out, then `V[x]` is shifted by one, for every value of the ignored `y` (R120, R123). Spec
decisions D12, D13 and D14 (log 9, log 10, log 11). -/
def Obligations.ShiftsWriteTheBitShiftedOut : Prop :=
  ∀ (x y : Reg) (s : State),
    (∃ t, exec (.shr x y) s = .next t ∧
      (x ≠ 15 → (t.readV 15).toNat = (s.readV x).toNat % 2 ∧ (t.readV x).toNat = (s.readV x).toNat / 2) ∧
      (x = 15 → (t.readV 15).toNat = 0) ∧ RegsKeptBut [x, 15] s t ∧ KeepsAllBut [.regs] s t) ∧
    (∃ t, exec (.shl x y) s = .next t ∧
      (x ≠ 15 → (t.readV 15).toNat = (s.readV x).toNat / 128 ∧ (t.readV x).toNat = (s.readV x).toNat * 2 % 256) ∧
      (x = 15 → (t.readV 15).toNat = 2 * ((s.readV x).toNat / 128)) ∧ RegsKeptBut [x, 15] s t ∧ KeepsAllBut [.regs] s t)

/-- RND: `V[x]` is the generator's next byte, whatever it is, ANDed with `nn`; the generator advances exactly once; nothing else
changes (R122, R124). The generator is a free value (log 14); frame D14 (log 11). -/
def Obligations.RndMasksTheNextGeneratorByte : Prop :=
  ∀ (x : Reg) (nn : Byte) (s : State),
    ∃ t, exec (.rnd x nn) s = .next t ∧
      (∀ k, (t.readV x).getLsbD k = ((Config.rngNext s.rng).1.getLsbD k && nn.getLsbD k)) ∧
      t.rng = (Config.rngNext s.rng).2 ∧ RegsKeptBut [x] s t ∧ KeepsAllBut [.regs, .rng] s t

/-- `VF` is left alone by every instruction but ADD, SUB, SHR, RSUB, SHL and DRAW that does not name `VF` as its destination, or
reach it as LDREGS VF does (R12). -/
def Obligations.FlagIsWrittenOnlyByTheSix : Prop :=
  ∀ (i : Instr) (s t : State), exec i s = .next t → t.readV 15 ≠ s.readV 15 →
    (∃ x y, i = .add x y ∨ i = .sub x y ∨ i = .shr x y ∨ i = .rsub x y ∨ i = .shl x y) ∨ (∃ x y n, i = .draw x y n) ∨
    (∃ nn, i = .ldimm 15 nn ∨ i = .addimm 15 nn ∨ i = .rnd 15 nn) ∨
    (∃ y, i = .mov 15 y ∨ i = .or 15 y ∨ i = .and 15 y ∨ i = .xor 15 y) ∨
    i = .ldregs 15 ∨ i = .lddt 15 ∨ i = .waitkey 15

/-! ### Index register and memory -/

/-- LDIDX, ADDIDX and LDFONT write `I` and nothing else: the address; the sum modulo 65536; five times the whole byte (R131, R132,
R133; frame D14, log 11). -/
def Obligations.IndexInstructionsWriteI : Prop :=
  ∀ (nnn : Nat) (x : Reg) (s : State),
    (nnn < 4096 → ∃ t, exec (.ldidx nnn) s = .next t ∧ t.idx.toNat = nnn ∧ KeepsAllBut [.idx] s t) ∧
    (∃ t, exec (.addidx x) s = .next t ∧ t.idx.toNat = (s.idx.toNat + (s.readV x).toNat) % 65536 ∧ KeepsAllBut [.idx] s t) ∧
    (∃ t, exec (.ldfont x) s = .next t ∧ t.idx.toNat = (s.readV x).toNat * 5 ∧ KeepsAllBut [.idx] s t)

/-- STBCD inside memory stores the hundreds, tens and units digits at `I`, `I+1`, `I+2`, changes no other byte and nothing else
(R134, R137; bounds D10, frame D14, log 7, log 11). -/
def Obligations.StbcdStoresThreeDigits : Prop :=
  ∀ (x : Reg) (s : State), s.idx.toNat + 2 ≤ 4095 →
    ∃ t, exec (.stbcd x) s = .next t ∧
      (t.readMem s.idx.toNat).toNat = (s.readV x).toNat / 100 ∧
      (t.readMem (s.idx.toNat + 1)).toNat = (s.readV x).toNat / 10 % 10 ∧
      (t.readMem (s.idx.toNat + 2)).toNat = (s.readV x).toNat % 10 ∧
      BytesKeptOutside s.idx.toNat 3 s t ∧ KeepsAllBut [.mem] s t

/-- STREGS inside memory stores `V[0]..V[x]` at `I..I+x`, changes no other byte and nothing else (R135, R137; D10, D14, log 7,
log 11). -/
def Obligations.StregsStoresTheRange : Prop :=
  ∀ (x : Reg) (s : State), s.idx.toNat + x.val ≤ 4095 →
    ∃ t, exec (.stregs x) s = .next t ∧
      (∀ i : Reg, i ≤ x → t.readMem (s.idx.toNat + i.val) = s.readV i) ∧
      BytesKeptOutside s.idx.toNat (x.val + 1) s t ∧ KeepsAllBut [.mem] s t

/-- LDREGS inside memory loads `V[0]..V[x]` from `I..I+x`, leaves the registers above `x` and everything else (R136, R137; D10,
D14, log 7, log 11). -/
def Obligations.LdregsLoadsTheRange : Prop :=
  ∀ (x : Reg) (s : State), s.idx.toNat + x.val ≤ 4095 →
    ∃ t, exec (.ldregs x) s = .next t ∧
      (∀ i : Reg, t.readV i = if i ≤ x then s.readMem (s.idx.toNat + i.val) else s.readV i) ∧ KeepsAllBut [.regs] s t

/-- LDREGS gives back what STREGS stored, whatever the registers hold in between (R45, R135, R136). -/
def Obligations.LdregsUndoesStregs : Prop :=
  ∀ (x : Reg) (s : State) (f : Reg → Byte), s.idx.toNat + x.val ≤ 4095 →
    ∃ t u, exec (.stregs x) s = .next t ∧ exec (.ldregs x) (t.setRegs f) = .next u ∧
      ∀ i : Reg, i ≤ x → u.readV i = s.readV i

/-- Which instructions reach memory: only STBCD and STREGS change a byte; and for every other instruction but LDREGS and DRAW,
what it does to the rest of the state does not depend on memory (R48). -/
def Obligations.OnlyFourInstructionsReachMemory : Prop :=
  (∀ (i : Instr) (s t : State) (a : Nat), exec i s = .next t → t.readMem a ≠ s.readMem a →
    ∃ x, i = .stbcd x ∨ i = .stregs x) ∧
  (∀ (i : Instr) (s t : State) (m : Memory), (∀ x, i ≠ .stbcd x ∧ i ≠ .stregs x ∧ i ≠ .ldregs x) →
    (∀ x y n, i ≠ .draw x y n) → exec i s = .next t → exec i { s with mem := m } = .next { t with mem := m })

/-- `I` is written by LDIDX, ADDIDX and LDFONT only, the stack by CALL and RET only, the grid by CLS and DRAW only, the generator
by RND only (R13, R15, R19, R22). -/
def Obligations.OnlyTheNamedInstructionsWrite : Prop :=
  ∀ (i : Instr) (s t : State), exec i s = .next t →
    (t.idx ≠ s.idx → (∃ nnn, i = .ldidx nnn) ∨ ∃ x, i = .addidx x ∨ i = .ldfont x) ∧
    (t.stk ≠ s.stk ∨ t.sp ≠ s.sp → (∃ nnn, i = .call nnn) ∨ i = .ret) ∧
    (t.fb ≠ s.fb → i = .cls ∨ ∃ x y n, i = .draw x y n) ∧
    (t.rng ≠ s.rng → ∃ x nn, i = .rnd x nn)

/-! ### Display -/

/-- CLS, the word 0x00E0, makes every cell 0 and leaves `VF` and `pc`, without a fault; a DRAW that follows, whatever its sprite,
reports no collision (R141). -/
def Obligations.ClsEmptiesTheGrid : Prop :=
  decodeWord 0x00E0 = .op .cls ∧
  ∀ s : State, ∃ t, exec .cls s = .next t ∧ (∀ row col, t.fb.cell row col = false) ∧
    t.readV 15 = s.readV 15 ∧ t.pc = s.pc ∧ t.run = s.run ∧
    ∀ x y n u, n < 16 → RangeInside t n → exec (.draw x y n) t = .next u → u.readV 15 = 0

/-- DRAW inside memory flips exactly the cells under a 1 of the sprite, wrapped on both axes, and changes nothing else but `VF`
(R142, R143). The bit order is spec decision D22 (log 20), the bounds D10 (log 7), the frame D14 (log 11). -/
def Obligations.DrawFlipsExactlyTheCoveredCells : Prop :=
  ∀ (x y : Reg) (n : Nat) (s : State), n < 16 → RangeInside s n →
    ∃ t, exec (.draw x y n) s = .next t ∧
      (∀ row col, t.fb.cell row col ≠ s.fb.cell row col ↔ SpriteCovers s x y n row.val col.val) ∧
      RegsKeptBut [15] s t ∧ KeepsAllBut [.fb, .regs] s t

/-- The collision flag: `VF` is 1 exactly when some cell that was 1 before lies under a 1 of the sprite, else 0 (R144). -/
def Obligations.DrawReportsTheCollision : Prop :=
  ∀ (x y : Reg) (n : Nat) (s : State), n < 16 → RangeInside s n →
    ∃ t, exec (.draw x y n) s = .next t ∧
      ((∃ row col, s.fb.cell row col = true ∧ SpriteCovers s x y n row.val col.val) → t.readV 15 = 1) ∧
      ((¬∃ row col, s.fb.cell row col = true ∧ SpriteCovers s x y n row.val col.val) → t.readV 15 = 0)

/-- The same sprite drawn twice at the same place gives the grid back, and the second DRAW collides exactly when the sprite has a
1 in it (the source's worked property, 95_test_vectors.md S10, for every sprite on an empty grid and every grid). -/
def Obligations.DrawingTwiceGivesTheGridBack : Prop :=
  ∀ (x y : Reg) (n : Nat) (s : State), n < 16 → RangeInside s n → x ≠ 15 → y ≠ 15 →
    ∃ t u, exec (.draw x y n) s = .next t ∧ exec (.draw x y n) t = .next u ∧ u.fb = s.fb ∧
      ((∀ row col, s.fb.cell row col = false) →
        (u.readV 15 = 1 ↔ ∃ row col : Nat, SpriteCovers s x y n row col))

/-! ### Keyboard, timers, waiting -/

/-- SKKEY and SKNKEY skip on the state of the key that `V[x]` names in the mask of the last poll; above 15 no key is down; nothing
but `pc` changes (R151, R152; spec decisions D15 and D14, log 12, log 11). -/
def Obligations.KeySkipsReadTheLastPoll : Prop :=
  ∀ (x : Reg) (s : State),
    (∃ t, exec (.skkey x) s = .next t ∧ KeepsAllBut [.pc] s t ∧
      t.pc = if (s.readV x).toNat ≤ 15 ∧ s.keys.toNat / 2 ^ (s.readV x).toNat % 2 = 1 then s.pc + 2 else s.pc) ∧
    (∃ t, exec (.sknkey x) s = .next t ∧ KeepsAllBut [.pc] s t ∧
      t.pc = if (s.readV x).toNat ≤ 15 ∧ s.keys.toNat / 2 ^ (s.readV x).toNat % 2 = 1 then s.pc else s.pc + 2)

/-- LDDT copies `DT` to `V[x]`, STDT and STST copy `V[x]` to a timer; nothing else changes (R153, R155, R156). The directions are
spec decision D30 (log 28), the frame D14 (log 11). -/
def Obligations.TimerInstructionsCopy : Prop :=
  ∀ (x : Reg) (s : State),
    (∃ t, exec (.lddt x) s = .next t ∧ t.readV x = s.dt ∧ RegsKeptBut [x] s t ∧ KeepsAllBut [.regs] s t) ∧
    (∃ t, exec (.stdt x) s = .next t ∧ t.dt = s.readV x ∧ KeepsAllBut [.dt] s t) ∧
    (∃ t, exec (.stst x) s = .next t ∧ t.st = s.readV x ∧ KeepsAllBut [.st] s t)

/-- Across a whole step a timer rises only if the step executed the instruction that writes it: STDT for `DT`, STST for `ST`
(R177, R178). -/
def Obligations.TimersRiseOnlyByTheirStore : Prop :=
  ∀ s t : State, step s = .next t →
    (s.dt.toNat < t.dt.toNat →
      ∃ x, decode (s.readMem s.pc.toNat) (s.readMem (s.pc.toNat + 1)) = .op (.stdt x)) ∧
    (s.st.toNat < t.st.toNat →
      ∃ x, decode (s.readMem s.pc.toNat) (s.readMem (s.pc.toNat + 1)) = .op (.stst x))

/-- Nothing reads `ST`: two runs that differ in the sound timer alone stay the same in everything else, step by step (R17, R156,
R179; that `ST` has no output is spec decision D26, log 24). -/
def Obligations.SoundTimerIsNeverRead : Prop :=
  ∀ (s t : State) (b : Byte), step s = .next t → ∃ u, step (s.setSt b) = .next u ∧ KeepsAllBut [.st] t u

/-- WAITKEY: with a key from the host its index, 0..15, goes to `V[x]` and the engine is not held; with none the engine is held; a
quit instead halts it; in the last two `V[x]` is not written, and in all three nothing else changes (R154; spec decisions D16 and
D14, log 13, log 11). -/
def Obligations.WaitkeyTakesAKeyOrHoldsOrQuits : Prop :=
  ∀ (x : Reg) (s : State),
    (∀ k, s.hostInput.waitkey = some k →
      ∃ t, exec (.waitkey x) s = .next t ∧ (t.readV x).toNat = k.val ∧ t.hold = none ∧ RegsKeptBut [x] s t ∧
        KeepsAllBut [.regs, .hold] s t) ∧
    (s.hostInput.waitkey = none → s.hostInput.quit = false →
      ∃ t, exec (.waitkey x) s = .next t ∧ t.hold = some x ∧ KeepsAllBut [.hold] s t) ∧
    (s.hostInput.waitkey = none → s.hostInput.quit = true →
      ∃ t, exec (.waitkey x) s = .next t ∧ t.run = .halted ∧ t.hold = none ∧ KeepsAllBut [.hold, .run] s t)

/-- The wait state: it is entered only by executing a WAITKEY and left only when the host supplies a key or quits; while it lasts
everything but the host's record is unchanged; the key then goes to the waiting register, and the same iteration ends as every
other: `KEYS` is polled, the timers lose its ticks, and a quit request decides `RUN` (R33, R154, R172, R187; a record with both a
key and a quit is log 13). -/
def Obligations.OnlyTheHostLiftsTheWait : Prop :=
  (∀ (s t : State) (x : Reg), s.hold = none → step s = .next t → t.hold = some x →
    decode (s.readMem s.pc.toNat) (s.readMem (s.pc.toNat + 1)) = .op (.waitkey x)) ∧
  (∀ (s : State) (x : Reg), s.run = .running → s.hold = some x →
    ∃ t, step s = .next t ∧
      (s.hostInput.waitkey = none → s.hostInput.quit = false → KeepsAllBut [.host] s t) ∧
      (s.hostInput.waitkey = none → s.hostInput.quit = true →
        t.run = .halted ∧ t.hold = none ∧ KeepsAllBut [.run, .hold] s t) ∧
      (∀ k, s.hostInput.waitkey = some k →
        t.hold = none ∧ (t.readV x).toNat = k.val ∧ RegsKeptBut [x] s t ∧
        t.dt.toNat = s.dt.toNat - s.hostInput.ticks ∧ t.st.toNat = s.st.toNat - s.hostInput.ticks ∧
        t.keys = s.hostInput.keys ∧ t.run = (if s.hostInput.quit = true then .halted else .running) ∧
        KeepsAllBut [.regs, .hold, .dt, .st, .keys, .run, .host] s t))

/-- What the host answers in an iteration cannot reach `V`, `I`, `pc`, the stack, memory, the grid or the generator in that
iteration, unless it executes WAITKEY: the poll, the ticks and the quit request come after execute (R20, R33, R171). -/
def Obligations.HostReachesTheProgramOnlyThroughWaitkey : Prop :=
  ∀ (s t : State) (ins : List HostInput) (d : Nat), s.run = .running → s.hold = none →
    (∀ x, decode (s.readMem s.pc.toNat) (s.readMem (s.pc.toNat + 1)) ≠ .op (.waitkey x)) → step s = .next t →
    ∃ u, step { s with inputs := ins, draws := d } = .next u ∧ KeepsAllBut [.dt, .st, .keys, .run, .host] t u

/-! ### The disassembler -/

/-- Pass 1: one entry per pair of bytes, entry `j` at `0x200 + 2*j`, a last byte without a pair dropped (R81). -/
def Obligations.ListingHasOneEntryPerPair : Prop :=
  ∀ image : List Byte, (listing image).length = image.length / 2 ∧
    ∀ j, j < image.length / 2 →
      (listing image)[j]? = some (0x200 + 2 * j, decode (image.getD (2 * j) 0) (image.getD (2 * j + 1) 0))

/-- Pass 2: each namespace names exactly the targets of its instruction, each once, and what is read later never renumbers a name
given earlier (R82, R86). -/
def Obligations.LabelsAreNumberedByFirstAppearance : Prop :=
  ∀ es fs : List (Nat × Operation),
    (jumpTargets es).Nodup ∧ (callTargets es).Nodup ∧
    (∀ t, t ∈ jumpTargets es ↔ ∃ a, (a, Operation.op (.jmp t)) ∈ es) ∧
    (∀ t, t ∈ callTargets es ↔ ∃ a, (a, Operation.op (.call t)) ∈ es) ∧
    jumpTargets es <+: jumpTargets (es ++ fs) ∧ callTargets es <+: callTargets (es ++ fs)
end

