-- ==== Sys2Proof/Laws/Decode.lean ====
section
/-! SUPPORT. The fields of a word built from its fields, and of the bytes it is cut into (spec/30_encoding.md R61, R62). -/

namespace Sys2Proof

theorem highByte_toNat (w : Word) : (highByte w).toNat = w.toNat / 256 := by
  have := w.isLt
  simp only [highByte, BitVec.toNat_ofNat]
  omega

theorem lowByte_toNat (w : Word) : (lowByte w).toNat = w.toNat % 256 := by
  simp only [lowByte, BitVec.toNat_ofNat]
  omega

/-- The bytes of a word, put together again (R6). -/
theorem word_of_bytes (w : Word) : (highByte w).toNat * 256 + (lowByte w).toNat = w.toNat := by
  rw [highByte_toNat, lowByte_toNat]
  omega

theorem encode_toNat (i : Instr) : (encode i).toNat = i.wordValue % 65536 := by
  simp [encode]

theorem familyOf_highByte (w : Word) : familyOf (highByte w) = w.toNat / 4096 := by
  rw [familyOf, highByte_toNat]
  omega

theorem fieldX_val (w : Word) : (fieldX (highByte w)).val = w.toNat / 256 % 16 := by
  simp only [fieldX, highByte_toNat]

theorem fieldY_val (w : Word) : (fieldY (lowByte w)).val = w.toNat / 16 % 16 := by
  simp only [fieldY, lowByte_toNat]
  omega

theorem fieldN_lowByte (w : Word) : fieldN (lowByte w) = w.toNat % 16 := by
  simp only [fieldN, lowByte_toNat]
  omega

theorem fieldNNN_bytes (w : Word) : fieldNNN (highByte w) (lowByte w) = w.toNat % 4096 := by
  simp only [fieldNNN, highByte_toNat, lowByte_toNat]
  omega

theorem familyOf_lt (b1 : Byte) : familyOf b1 < 16 := by
  have := b1.isLt
  unfold familyOf
  omega

/-- The decoder on family 0xF, the last of the sixteen (R64). -/
theorem decode_familyF {b1 b2 : Byte} (h : familyOf b1 = 15) : decode b1 b2 = decodeFamilyF b1 b2 := by
  simp only [decode, h]

/-- What the decoder gives is an `Invalid` with both raw bytes, or an operation (R63). -/
theorem decode_invalid_bytes {b1 b2 c1 c2 : Byte} (h : decode b1 b2 = .invalid c1 c2) : c1 = b1 ∧ c2 = b2 := by
  unfold decode decodeFamily0 decodeFamily8 decodeFamilyE decodeFamilyF at h
  simp only at h
  repeat' split at h
  all_goals cases h
  all_goals exact ⟨rfl, rfl⟩

end Sys2Proof
end

