-- ==== Sys2Proof/Laws/State.lean ====
section
/-! SUPPORT. The small lemmas of the state: one per field per update, and what an update leaves of each read accessor. -/

namespace Sys2Proof.Machine.State

section Fields
variable (s : State)

/-! #### writeMem -/

@[simp] theorem writeMem_v (a : Nat) (vs : List Byte) : (s.writeMem a vs).v = s.v := rfl
@[simp] theorem writeMem_idx (a : Nat) (vs : List Byte) : (s.writeMem a vs).idx = s.idx := rfl
@[simp] theorem writeMem_pc (a : Nat) (vs : List Byte) : (s.writeMem a vs).pc = s.pc := rfl
@[simp] theorem writeMem_stk (a : Nat) (vs : List Byte) : (s.writeMem a vs).stk = s.stk := rfl
@[simp] theorem writeMem_sp (a : Nat) (vs : List Byte) : (s.writeMem a vs).sp = s.sp := rfl
@[simp] theorem writeMem_dt (a : Nat) (vs : List Byte) : (s.writeMem a vs).dt = s.dt := rfl
@[simp] theorem writeMem_st (a : Nat) (vs : List Byte) : (s.writeMem a vs).st = s.st := rfl
@[simp] theorem writeMem_mem (a : Nat) (vs : List Byte) : (s.writeMem a vs).mem = s.mem.writeBytes a vs := rfl
@[simp] theorem writeMem_fb (a : Nat) (vs : List Byte) : (s.writeMem a vs).fb = s.fb := rfl
@[simp] theorem writeMem_keys (a : Nat) (vs : List Byte) : (s.writeMem a vs).keys = s.keys := rfl
@[simp] theorem writeMem_rng (a : Nat) (vs : List Byte) : (s.writeMem a vs).rng = s.rng := rfl
@[simp] theorem writeMem_run (a : Nat) (vs : List Byte) : (s.writeMem a vs).run = s.run := rfl
@[simp] theorem writeMem_hold (a : Nat) (vs : List Byte) : (s.writeMem a vs).hold = s.hold := rfl
@[simp] theorem writeMem_inputs (a : Nat) (vs : List Byte) : (s.writeMem a vs).inputs = s.inputs := rfl
@[simp] theorem writeMem_draws (a : Nat) (vs : List Byte) : (s.writeMem a vs).draws = s.draws := rfl
@[simp] theorem writeMem_readV (a : Nat) (vs : List Byte) (reg : Reg) : (s.writeMem a vs).readV reg = s.readV reg := rfl
@[simp] theorem writeMem_hostInput (a : Nat) (vs : List Byte) : (s.writeMem a vs).hostInput = s.hostInput := rfl

/-! #### writeV -/

@[simp] theorem writeV_v (x : Reg) (b : Byte) : (s.writeV x b).v = s.v.set x.val b := rfl
@[simp] theorem writeV_idx (x : Reg) (b : Byte) : (s.writeV x b).idx = s.idx := rfl
@[simp] theorem writeV_pc (x : Reg) (b : Byte) : (s.writeV x b).pc = s.pc := rfl
@[simp] theorem writeV_stk (x : Reg) (b : Byte) : (s.writeV x b).stk = s.stk := rfl
@[simp] theorem writeV_sp (x : Reg) (b : Byte) : (s.writeV x b).sp = s.sp := rfl
@[simp] theorem writeV_dt (x : Reg) (b : Byte) : (s.writeV x b).dt = s.dt := rfl
@[simp] theorem writeV_st (x : Reg) (b : Byte) : (s.writeV x b).st = s.st := rfl
@[simp] theorem writeV_mem (x : Reg) (b : Byte) : (s.writeV x b).mem = s.mem := rfl
@[simp] theorem writeV_fb (x : Reg) (b : Byte) : (s.writeV x b).fb = s.fb := rfl
@[simp] theorem writeV_keys (x : Reg) (b : Byte) : (s.writeV x b).keys = s.keys := rfl
@[simp] theorem writeV_rng (x : Reg) (b : Byte) : (s.writeV x b).rng = s.rng := rfl
@[simp] theorem writeV_run (x : Reg) (b : Byte) : (s.writeV x b).run = s.run := rfl
@[simp] theorem writeV_hold (x : Reg) (b : Byte) : (s.writeV x b).hold = s.hold := rfl
@[simp] theorem writeV_inputs (x : Reg) (b : Byte) : (s.writeV x b).inputs = s.inputs := rfl
@[simp] theorem writeV_draws (x : Reg) (b : Byte) : (s.writeV x b).draws = s.draws := rfl
@[simp] theorem writeV_readMem (x : Reg) (b : Byte) (addr : Nat) : (s.writeV x b).readMem addr = s.readMem addr := rfl
@[simp] theorem writeV_hostInput (x : Reg) (b : Byte) : (s.writeV x b).hostInput = s.hostInput := rfl

/-! #### setRegs -/

@[simp] theorem setRegs_v (f : Reg → Byte) : (s.setRegs f).v = Vector.ofFn f := rfl
@[simp] theorem setRegs_idx (f : Reg → Byte) : (s.setRegs f).idx = s.idx := rfl
@[simp] theorem setRegs_pc (f : Reg → Byte) : (s.setRegs f).pc = s.pc := rfl
@[simp] theorem setRegs_stk (f : Reg → Byte) : (s.setRegs f).stk = s.stk := rfl
@[simp] theorem setRegs_sp (f : Reg → Byte) : (s.setRegs f).sp = s.sp := rfl
@[simp] theorem setRegs_dt (f : Reg → Byte) : (s.setRegs f).dt = s.dt := rfl
@[simp] theorem setRegs_st (f : Reg → Byte) : (s.setRegs f).st = s.st := rfl
@[simp] theorem setRegs_mem (f : Reg → Byte) : (s.setRegs f).mem = s.mem := rfl
@[simp] theorem setRegs_fb (f : Reg → Byte) : (s.setRegs f).fb = s.fb := rfl
@[simp] theorem setRegs_keys (f : Reg → Byte) : (s.setRegs f).keys = s.keys := rfl
@[simp] theorem setRegs_rng (f : Reg → Byte) : (s.setRegs f).rng = s.rng := rfl
@[simp] theorem setRegs_run (f : Reg → Byte) : (s.setRegs f).run = s.run := rfl
@[simp] theorem setRegs_hold (f : Reg → Byte) : (s.setRegs f).hold = s.hold := rfl
@[simp] theorem setRegs_inputs (f : Reg → Byte) : (s.setRegs f).inputs = s.inputs := rfl
@[simp] theorem setRegs_draws (f : Reg → Byte) : (s.setRegs f).draws = s.draws := rfl
@[simp] theorem setRegs_readMem (f : Reg → Byte) (addr : Nat) : (s.setRegs f).readMem addr = s.readMem addr := rfl
@[simp] theorem setRegs_hostInput (f : Reg → Byte) : (s.setRegs f).hostInput = s.hostInput := rfl

/-! #### setIdx -/

@[simp] theorem setIdx_v (w : Word) : (s.setIdx w).v = s.v := rfl
@[simp] theorem setIdx_idx (w : Word) : (s.setIdx w).idx = w := rfl
@[simp] theorem setIdx_pc (w : Word) : (s.setIdx w).pc = s.pc := rfl
@[simp] theorem setIdx_stk (w : Word) : (s.setIdx w).stk = s.stk := rfl
@[simp] theorem setIdx_sp (w : Word) : (s.setIdx w).sp = s.sp := rfl
@[simp] theorem setIdx_dt (w : Word) : (s.setIdx w).dt = s.dt := rfl
@[simp] theorem setIdx_st (w : Word) : (s.setIdx w).st = s.st := rfl
@[simp] theorem setIdx_mem (w : Word) : (s.setIdx w).mem = s.mem := rfl
@[simp] theorem setIdx_fb (w : Word) : (s.setIdx w).fb = s.fb := rfl
@[simp] theorem setIdx_keys (w : Word) : (s.setIdx w).keys = s.keys := rfl
@[simp] theorem setIdx_rng (w : Word) : (s.setIdx w).rng = s.rng := rfl
@[simp] theorem setIdx_run (w : Word) : (s.setIdx w).run = s.run := rfl
@[simp] theorem setIdx_hold (w : Word) : (s.setIdx w).hold = s.hold := rfl
@[simp] theorem setIdx_inputs (w : Word) : (s.setIdx w).inputs = s.inputs := rfl
@[simp] theorem setIdx_draws (w : Word) : (s.setIdx w).draws = s.draws := rfl
@[simp] theorem setIdx_readV (w : Word) (reg : Reg) : (s.setIdx w).readV reg = s.readV reg := rfl
@[simp] theorem setIdx_readMem (w : Word) (addr : Nat) : (s.setIdx w).readMem addr = s.readMem addr := rfl
@[simp] theorem setIdx_hostInput (w : Word) : (s.setIdx w).hostInput = s.hostInput := rfl

/-! #### setPc -/

@[simp] theorem setPc_v (w : Word) : (s.setPc w).v = s.v := rfl
@[simp] theorem setPc_idx (w : Word) : (s.setPc w).idx = s.idx := rfl
@[simp] theorem setPc_pc (w : Word) : (s.setPc w).pc = w := rfl
@[simp] theorem setPc_stk (w : Word) : (s.setPc w).stk = s.stk := rfl
@[simp] theorem setPc_sp (w : Word) : (s.setPc w).sp = s.sp := rfl
@[simp] theorem setPc_dt (w : Word) : (s.setPc w).dt = s.dt := rfl
@[simp] theorem setPc_st (w : Word) : (s.setPc w).st = s.st := rfl
@[simp] theorem setPc_mem (w : Word) : (s.setPc w).mem = s.mem := rfl
@[simp] theorem setPc_fb (w : Word) : (s.setPc w).fb = s.fb := rfl
@[simp] theorem setPc_keys (w : Word) : (s.setPc w).keys = s.keys := rfl
@[simp] theorem setPc_rng (w : Word) : (s.setPc w).rng = s.rng := rfl
@[simp] theorem setPc_run (w : Word) : (s.setPc w).run = s.run := rfl
@[simp] theorem setPc_hold (w : Word) : (s.setPc w).hold = s.hold := rfl
@[simp] theorem setPc_inputs (w : Word) : (s.setPc w).inputs = s.inputs := rfl
@[simp] theorem setPc_draws (w : Word) : (s.setPc w).draws = s.draws := rfl
@[simp] theorem setPc_readV (w : Word) (reg : Reg) : (s.setPc w).readV reg = s.readV reg := rfl
@[simp] theorem setPc_readMem (w : Word) (addr : Nat) : (s.setPc w).readMem addr = s.readMem addr := rfl
@[simp] theorem setPc_hostInput (w : Word) : (s.setPc w).hostInput = s.hostInput := rfl

/-! #### setDt -/

@[simp] theorem setDt_v (b : Byte) : (s.setDt b).v = s.v := rfl
@[simp] theorem setDt_idx (b : Byte) : (s.setDt b).idx = s.idx := rfl
@[simp] theorem setDt_pc (b : Byte) : (s.setDt b).pc = s.pc := rfl
@[simp] theorem setDt_stk (b : Byte) : (s.setDt b).stk = s.stk := rfl
@[simp] theorem setDt_sp (b : Byte) : (s.setDt b).sp = s.sp := rfl
@[simp] theorem setDt_dt (b : Byte) : (s.setDt b).dt = b := rfl
@[simp] theorem setDt_st (b : Byte) : (s.setDt b).st = s.st := rfl
@[simp] theorem setDt_mem (b : Byte) : (s.setDt b).mem = s.mem := rfl
@[simp] theorem setDt_fb (b : Byte) : (s.setDt b).fb = s.fb := rfl
@[simp] theorem setDt_keys (b : Byte) : (s.setDt b).keys = s.keys := rfl
@[simp] theorem setDt_rng (b : Byte) : (s.setDt b).rng = s.rng := rfl
@[simp] theorem setDt_run (b : Byte) : (s.setDt b).run = s.run := rfl
@[simp] theorem setDt_hold (b : Byte) : (s.setDt b).hold = s.hold := rfl
@[simp] theorem setDt_inputs (b : Byte) : (s.setDt b).inputs = s.inputs := rfl
@[simp] theorem setDt_draws (b : Byte) : (s.setDt b).draws = s.draws := rfl
@[simp] theorem setDt_readV (b : Byte) (reg : Reg) : (s.setDt b).readV reg = s.readV reg := rfl
@[simp] theorem setDt_readMem (b : Byte) (addr : Nat) : (s.setDt b).readMem addr = s.readMem addr := rfl
@[simp] theorem setDt_hostInput (b : Byte) : (s.setDt b).hostInput = s.hostInput := rfl

/-! #### setSt -/

@[simp] theorem setSt_v (b : Byte) : (s.setSt b).v = s.v := rfl
@[simp] theorem setSt_idx (b : Byte) : (s.setSt b).idx = s.idx := rfl
@[simp] theorem setSt_pc (b : Byte) : (s.setSt b).pc = s.pc := rfl
@[simp] theorem setSt_stk (b : Byte) : (s.setSt b).stk = s.stk := rfl
@[simp] theorem setSt_sp (b : Byte) : (s.setSt b).sp = s.sp := rfl
@[simp] theorem setSt_dt (b : Byte) : (s.setSt b).dt = s.dt := rfl
@[simp] theorem setSt_st (b : Byte) : (s.setSt b).st = b := rfl
@[simp] theorem setSt_mem (b : Byte) : (s.setSt b).mem = s.mem := rfl
@[simp] theorem setSt_fb (b : Byte) : (s.setSt b).fb = s.fb := rfl
@[simp] theorem setSt_keys (b : Byte) : (s.setSt b).keys = s.keys := rfl
@[simp] theorem setSt_rng (b : Byte) : (s.setSt b).rng = s.rng := rfl
@[simp] theorem setSt_run (b : Byte) : (s.setSt b).run = s.run := rfl
@[simp] theorem setSt_hold (b : Byte) : (s.setSt b).hold = s.hold := rfl
@[simp] theorem setSt_inputs (b : Byte) : (s.setSt b).inputs = s.inputs := rfl
@[simp] theorem setSt_draws (b : Byte) : (s.setSt b).draws = s.draws := rfl
@[simp] theorem setSt_readV (b : Byte) (reg : Reg) : (s.setSt b).readV reg = s.readV reg := rfl
@[simp] theorem setSt_readMem (b : Byte) (addr : Nat) : (s.setSt b).readMem addr = s.readMem addr := rfl
@[simp] theorem setSt_hostInput (b : Byte) : (s.setSt b).hostInput = s.hostInput := rfl

/-! #### setFb -/

@[simp] theorem setFb_v (f : Frame) : (s.setFb f).v = s.v := rfl
@[simp] theorem setFb_idx (f : Frame) : (s.setFb f).idx = s.idx := rfl
@[simp] theorem setFb_pc (f : Frame) : (s.setFb f).pc = s.pc := rfl
@[simp] theorem setFb_stk (f : Frame) : (s.setFb f).stk = s.stk := rfl
@[simp] theorem setFb_sp (f : Frame) : (s.setFb f).sp = s.sp := rfl
@[simp] theorem setFb_dt (f : Frame) : (s.setFb f).dt = s.dt := rfl
@[simp] theorem setFb_st (f : Frame) : (s.setFb f).st = s.st := rfl
@[simp] theorem setFb_mem (f : Frame) : (s.setFb f).mem = s.mem := rfl
@[simp] theorem setFb_fb (f : Frame) : (s.setFb f).fb = f := rfl
@[simp] theorem setFb_keys (f : Frame) : (s.setFb f).keys = s.keys := rfl
@[simp] theorem setFb_rng (f : Frame) : (s.setFb f).rng = s.rng := rfl
@[simp] theorem setFb_run (f : Frame) : (s.setFb f).run = s.run := rfl
@[simp] theorem setFb_hold (f : Frame) : (s.setFb f).hold = s.hold := rfl
@[simp] theorem setFb_inputs (f : Frame) : (s.setFb f).inputs = s.inputs := rfl
@[simp] theorem setFb_draws (f : Frame) : (s.setFb f).draws = s.draws := rfl
@[simp] theorem setFb_readV (f : Frame) (reg : Reg) : (s.setFb f).readV reg = s.readV reg := rfl
@[simp] theorem setFb_readMem (f : Frame) (addr : Nat) : (s.setFb f).readMem addr = s.readMem addr := rfl
@[simp] theorem setFb_hostInput (f : Frame) : (s.setFb f).hostInput = s.hostInput := rfl

/-! #### setRun -/

@[simp] theorem setRun_v (r : RunStatus) : (s.setRun r).v = s.v := rfl
@[simp] theorem setRun_idx (r : RunStatus) : (s.setRun r).idx = s.idx := rfl
@[simp] theorem setRun_pc (r : RunStatus) : (s.setRun r).pc = s.pc := rfl
@[simp] theorem setRun_stk (r : RunStatus) : (s.setRun r).stk = s.stk := rfl
@[simp] theorem setRun_sp (r : RunStatus) : (s.setRun r).sp = s.sp := rfl
@[simp] theorem setRun_dt (r : RunStatus) : (s.setRun r).dt = s.dt := rfl
@[simp] theorem setRun_st (r : RunStatus) : (s.setRun r).st = s.st := rfl
@[simp] theorem setRun_mem (r : RunStatus) : (s.setRun r).mem = s.mem := rfl
@[simp] theorem setRun_fb (r : RunStatus) : (s.setRun r).fb = s.fb := rfl
@[simp] theorem setRun_keys (r : RunStatus) : (s.setRun r).keys = s.keys := rfl
@[simp] theorem setRun_rng (r : RunStatus) : (s.setRun r).rng = s.rng := rfl
@[simp] theorem setRun_run (r : RunStatus) : (s.setRun r).run = r := rfl
@[simp] theorem setRun_hold (r : RunStatus) : (s.setRun r).hold = s.hold := rfl
@[simp] theorem setRun_inputs (r : RunStatus) : (s.setRun r).inputs = s.inputs := rfl
@[simp] theorem setRun_draws (r : RunStatus) : (s.setRun r).draws = s.draws := rfl
@[simp] theorem setRun_readV (r : RunStatus) (reg : Reg) : (s.setRun r).readV reg = s.readV reg := rfl
@[simp] theorem setRun_readMem (r : RunStatus) (addr : Nat) : (s.setRun r).readMem addr = s.readMem addr := rfl
@[simp] theorem setRun_hostInput (r : RunStatus) : (s.setRun r).hostInput = s.hostInput := rfl

/-! #### setHold -/

@[simp] theorem setHold_v (h : Option Reg) : (s.setHold h).v = s.v := rfl
@[simp] theorem setHold_idx (h : Option Reg) : (s.setHold h).idx = s.idx := rfl
@[simp] theorem setHold_pc (h : Option Reg) : (s.setHold h).pc = s.pc := rfl
@[simp] theorem setHold_stk (h : Option Reg) : (s.setHold h).stk = s.stk := rfl
@[simp] theorem setHold_sp (h : Option Reg) : (s.setHold h).sp = s.sp := rfl
@[simp] theorem setHold_dt (h : Option Reg) : (s.setHold h).dt = s.dt := rfl
@[simp] theorem setHold_st (h : Option Reg) : (s.setHold h).st = s.st := rfl
@[simp] theorem setHold_mem (h : Option Reg) : (s.setHold h).mem = s.mem := rfl
@[simp] theorem setHold_fb (h : Option Reg) : (s.setHold h).fb = s.fb := rfl
@[simp] theorem setHold_keys (h : Option Reg) : (s.setHold h).keys = s.keys := rfl
@[simp] theorem setHold_rng (h : Option Reg) : (s.setHold h).rng = s.rng := rfl
@[simp] theorem setHold_run (h : Option Reg) : (s.setHold h).run = s.run := rfl
@[simp] theorem setHold_hold (h : Option Reg) : (s.setHold h).hold = h := rfl
@[simp] theorem setHold_inputs (h : Option Reg) : (s.setHold h).inputs = s.inputs := rfl
@[simp] theorem setHold_draws (h : Option Reg) : (s.setHold h).draws = s.draws := rfl
@[simp] theorem setHold_readV (h : Option Reg) (reg : Reg) : (s.setHold h).readV reg = s.readV reg := rfl
@[simp] theorem setHold_readMem (h : Option Reg) (addr : Nat) : (s.setHold h).readMem addr = s.readMem addr := rfl
@[simp] theorem setHold_hostInput (h : Option Reg) : (s.setHold h).hostInput = s.hostInput := rfl

/-! #### push -/

@[simp] theorem push_v (w : Word) (h : s.sp.val < 16) : (s.push w h).v = s.v := rfl
@[simp] theorem push_idx (w : Word) (h : s.sp.val < 16) : (s.push w h).idx = s.idx := rfl
@[simp] theorem push_pc (w : Word) (h : s.sp.val < 16) : (s.push w h).pc = s.pc := rfl
@[simp] theorem push_stk (w : Word) (h : s.sp.val < 16) : (s.push w h).stk = s.stk.set s.sp.val w := rfl
@[simp] theorem push_sp (w : Word) (h : s.sp.val < 16) : (s.push w h).sp = ⟨s.sp.val + 1, by omega⟩ := rfl
@[simp] theorem push_dt (w : Word) (h : s.sp.val < 16) : (s.push w h).dt = s.dt := rfl
@[simp] theorem push_st (w : Word) (h : s.sp.val < 16) : (s.push w h).st = s.st := rfl
@[simp] theorem push_mem (w : Word) (h : s.sp.val < 16) : (s.push w h).mem = s.mem := rfl
@[simp] theorem push_fb (w : Word) (h : s.sp.val < 16) : (s.push w h).fb = s.fb := rfl
@[simp] theorem push_keys (w : Word) (h : s.sp.val < 16) : (s.push w h).keys = s.keys := rfl
@[simp] theorem push_rng (w : Word) (h : s.sp.val < 16) : (s.push w h).rng = s.rng := rfl
@[simp] theorem push_run (w : Word) (h : s.sp.val < 16) : (s.push w h).run = s.run := rfl
@[simp] theorem push_hold (w : Word) (h : s.sp.val < 16) : (s.push w h).hold = s.hold := rfl
@[simp] theorem push_inputs (w : Word) (h : s.sp.val < 16) : (s.push w h).inputs = s.inputs := rfl
@[simp] theorem push_draws (w : Word) (h : s.sp.val < 16) : (s.push w h).draws = s.draws := rfl
@[simp] theorem push_readV (w : Word) (h : s.sp.val < 16) (reg : Reg) : (s.push w h).readV reg = s.readV reg := rfl
@[simp] theorem push_readMem (w : Word) (h : s.sp.val < 16) (addr : Nat) : (s.push w h).readMem addr = s.readMem addr := rfl
@[simp] theorem push_hostInput (w : Word) (h : s.sp.val < 16) : (s.push w h).hostInput = s.hostInput := rfl

/-! #### popPc -/

@[simp] theorem popPc_v (h : 0 < s.sp.val) : (s.popPc h).v = s.v := rfl
@[simp] theorem popPc_idx (h : 0 < s.sp.val) : (s.popPc h).idx = s.idx := rfl
@[simp] theorem popPc_pc (h : 0 < s.sp.val) : (s.popPc h).pc = s.stk[s.sp.val - 1]'(by have := s.sp.isLt; omega) := rfl
@[simp] theorem popPc_stk (h : 0 < s.sp.val) : (s.popPc h).stk = s.stk := rfl
@[simp] theorem popPc_sp (h : 0 < s.sp.val) : (s.popPc h).sp = ⟨s.sp.val - 1, by omega⟩ := rfl
@[simp] theorem popPc_dt (h : 0 < s.sp.val) : (s.popPc h).dt = s.dt := rfl
@[simp] theorem popPc_st (h : 0 < s.sp.val) : (s.popPc h).st = s.st := rfl
@[simp] theorem popPc_mem (h : 0 < s.sp.val) : (s.popPc h).mem = s.mem := rfl
@[simp] theorem popPc_fb (h : 0 < s.sp.val) : (s.popPc h).fb = s.fb := rfl
@[simp] theorem popPc_keys (h : 0 < s.sp.val) : (s.popPc h).keys = s.keys := rfl
@[simp] theorem popPc_rng (h : 0 < s.sp.val) : (s.popPc h).rng = s.rng := rfl
@[simp] theorem popPc_run (h : 0 < s.sp.val) : (s.popPc h).run = s.run := rfl
@[simp] theorem popPc_hold (h : 0 < s.sp.val) : (s.popPc h).hold = s.hold := rfl
@[simp] theorem popPc_inputs (h : 0 < s.sp.val) : (s.popPc h).inputs = s.inputs := rfl
@[simp] theorem popPc_draws (h : 0 < s.sp.val) : (s.popPc h).draws = s.draws := rfl
@[simp] theorem popPc_readV (h : 0 < s.sp.val) (reg : Reg) : (s.popPc h).readV reg = s.readV reg := rfl
@[simp] theorem popPc_readMem (h : 0 < s.sp.val) (addr : Nat) : (s.popPc h).readMem addr = s.readMem addr := rfl
@[simp] theorem popPc_hostInput (h : 0 < s.sp.val) : (s.popPc h).hostInput = s.hostInput := rfl

/-! #### rngStep -/

@[simp] theorem rngStep_v : s.rngStep.v = s.v := rfl
@[simp] theorem rngStep_idx : s.rngStep.idx = s.idx := rfl
@[simp] theorem rngStep_pc : s.rngStep.pc = s.pc := rfl
@[simp] theorem rngStep_stk : s.rngStep.stk = s.stk := rfl
@[simp] theorem rngStep_sp : s.rngStep.sp = s.sp := rfl
@[simp] theorem rngStep_dt : s.rngStep.dt = s.dt := rfl
@[simp] theorem rngStep_st : s.rngStep.st = s.st := rfl
@[simp] theorem rngStep_mem : s.rngStep.mem = s.mem := rfl
@[simp] theorem rngStep_fb : s.rngStep.fb = s.fb := rfl
@[simp] theorem rngStep_keys : s.rngStep.keys = s.keys := rfl
@[simp] theorem rngStep_rng : s.rngStep.rng = (Config.rngNext s.rng).2 := rfl
@[simp] theorem rngStep_run : s.rngStep.run = s.run := rfl
@[simp] theorem rngStep_hold : s.rngStep.hold = s.hold := rfl
@[simp] theorem rngStep_inputs : s.rngStep.inputs = s.inputs := rfl
@[simp] theorem rngStep_draws : s.rngStep.draws = s.draws := rfl
@[simp] theorem rngStep_readV (reg : Reg) : s.rngStep.readV reg = s.readV reg := rfl
@[simp] theorem rngStep_readMem (addr : Nat) : s.rngStep.readMem addr = s.readMem addr := rfl
@[simp] theorem rngStep_hostInput : s.rngStep.hostInput = s.hostInput := rfl

/-! #### consumeInput -/

@[simp] theorem consumeInput_v : s.consumeInput.v = s.v := rfl
@[simp] theorem consumeInput_idx : s.consumeInput.idx = s.idx := rfl
@[simp] theorem consumeInput_pc : s.consumeInput.pc = s.pc := rfl
@[simp] theorem consumeInput_stk : s.consumeInput.stk = s.stk := rfl
@[simp] theorem consumeInput_sp : s.consumeInput.sp = s.sp := rfl
@[simp] theorem consumeInput_dt : s.consumeInput.dt = s.dt := rfl
@[simp] theorem consumeInput_st : s.consumeInput.st = s.st := rfl
@[simp] theorem consumeInput_mem : s.consumeInput.mem = s.mem := rfl
@[simp] theorem consumeInput_fb : s.consumeInput.fb = s.fb := rfl
@[simp] theorem consumeInput_keys : s.consumeInput.keys = s.keys := rfl
@[simp] theorem consumeInput_rng : s.consumeInput.rng = s.rng := rfl
@[simp] theorem consumeInput_run : s.consumeInput.run = s.run := rfl
@[simp] theorem consumeInput_hold : s.consumeInput.hold = s.hold := rfl
@[simp] theorem consumeInput_inputs : s.consumeInput.inputs = s.inputs.tail := rfl
@[simp] theorem consumeInput_draws : s.consumeInput.draws = s.draws + 1 := rfl
@[simp] theorem consumeInput_readV (reg : Reg) : s.consumeInput.readV reg = s.readV reg := rfl
@[simp] theorem consumeInput_readMem (addr : Nat) : s.consumeInput.readMem addr = s.readMem addr := rfl

/-! #### poll -/

@[simp] theorem poll_v : s.poll.v = s.v := rfl
@[simp] theorem poll_idx : s.poll.idx = s.idx := rfl
@[simp] theorem poll_pc : s.poll.pc = s.pc := rfl
@[simp] theorem poll_stk : s.poll.stk = s.stk := rfl
@[simp] theorem poll_sp : s.poll.sp = s.sp := rfl
@[simp] theorem poll_dt : s.poll.dt = s.dt := rfl
@[simp] theorem poll_st : s.poll.st = s.st := rfl
@[simp] theorem poll_mem : s.poll.mem = s.mem := rfl
@[simp] theorem poll_fb : s.poll.fb = s.fb := rfl
@[simp] theorem poll_keys : s.poll.keys = s.hostInput.keys := rfl
@[simp] theorem poll_rng : s.poll.rng = s.rng := rfl
@[simp] theorem poll_run : s.poll.run = s.run := rfl
@[simp] theorem poll_hold : s.poll.hold = s.hold := rfl
@[simp] theorem poll_inputs : s.poll.inputs = s.inputs := rfl
@[simp] theorem poll_draws : s.poll.draws = s.draws := rfl
@[simp] theorem poll_readV (reg : Reg) : s.poll.readV reg = s.readV reg := rfl
@[simp] theorem poll_readMem (addr : Nat) : s.poll.readMem addr = s.readMem addr := rfl
@[simp] theorem poll_hostInput : s.poll.hostInput = s.hostInput := rfl

/-! #### decay -/

@[simp] theorem decay_v : s.decay.v = s.v := rfl
@[simp] theorem decay_idx : s.decay.idx = s.idx := rfl
@[simp] theorem decay_pc : s.decay.pc = s.pc := rfl
@[simp] theorem decay_stk : s.decay.stk = s.stk := rfl
@[simp] theorem decay_sp : s.decay.sp = s.sp := rfl
@[simp] theorem decay_dt : s.decay.dt = decayTimer s.dt s.hostInput.ticks := rfl
@[simp] theorem decay_st : s.decay.st = decayTimer s.st s.hostInput.ticks := rfl
@[simp] theorem decay_mem : s.decay.mem = s.mem := rfl
@[simp] theorem decay_fb : s.decay.fb = s.fb := rfl
@[simp] theorem decay_keys : s.decay.keys = s.keys := rfl
@[simp] theorem decay_rng : s.decay.rng = s.rng := rfl
@[simp] theorem decay_run : s.decay.run = s.run := rfl
@[simp] theorem decay_hold : s.decay.hold = s.hold := rfl
@[simp] theorem decay_inputs : s.decay.inputs = s.inputs := rfl
@[simp] theorem decay_draws : s.decay.draws = s.draws := rfl
@[simp] theorem decay_readV (reg : Reg) : s.decay.readV reg = s.readV reg := rfl
@[simp] theorem decay_readMem (addr : Nat) : s.decay.readMem addr = s.readMem addr := rfl
@[simp] theorem decay_hostInput : s.decay.hostInput = s.hostInput := rfl

end Fields

/-! #### The register file -/

/-- A write to `V[x]` is read back from `V[x]` and seen nowhere else (R11: no aliases). -/
theorem readV_writeV (s : State) (x r : Reg) (b : Byte) : (s.writeV x b).readV r = if r = x then b else s.readV r := by
  simp only [readV, writeV, Vector.getElem_set, Fin.ext_iff, eq_comm]

@[simp] theorem readV_writeV_same (s : State) (x : Reg) (b : Byte) : (s.writeV x b).readV x = b := by
  simp [readV_writeV]

theorem readV_writeV_of_ne (s : State) (x r : Reg) (b : Byte) (h : r ≠ x) : (s.writeV x b).readV r = s.readV r := by
  simp [readV_writeV, h]

@[simp] theorem readV_setRegs (s : State) (f : Reg → Byte) (r : Reg) : (s.setRegs f).readV r = f r := by
  simp [readV, setRegs]

/-! #### Composite updates are the plain ones -/

@[simp] theorem advance_eq (s : State) : s.advance = s.setPc (s.pc + 2) := rfl

@[simp] theorem raise_eq (s : State) (f : Fault) : s.raise f = s.setRun (.faulted f) := rfl

@[simp] theorem present_eq (s : State) : s.present = s := rfl

@[simp] theorem skipIf_true (s : State) : s.skipIf true = s.setPc (s.pc + 2) := rfl

@[simp] theorem skipIf_false (s : State) : s.skipIf false = s := rfl

/-- A skip moves `pc` by two or not at all and changes nothing else (R32). -/
theorem skipIf_eq_setPc (s : State) (c : Bool) : s.skipIf c = s.setPc (if c then s.pc + 2 else s.pc) := by
  cases c <;> rfl

end Sys2Proof.Machine.State
end

