-- ==== Sys2Proof/Laws/Draw.lean ====
section
/-! SUPPORT. What drawing a sprite does to the grid: the lemma of `drawSprite` (spec/43_display.md R142 to R144). -/

namespace Sys2Proof.Machine

theorem Frame.cell_flip (f : Frame) (r row : Fin 32) (c col : Fin 64) :
    (f.flip r c).cell row col = if row = r ∧ col = c then !f.cell row col else f.cell row col := by
  simp only [Frame.cell, Frame.flip, Vector.getElem_set]
  by_cases h : row = r
  · subst h
    by_cases h2 : col = c
    · subst h2
      simp
    · have : ¬c.val = col.val := fun e => h2 (Fin.ext e.symm)
      simp [this, h2]
  · have : ¬r.val = row.val := fun e => h (Fin.ext e.symm)
    simp [this, h]

/-- Flipping, one after another, cells that are all different: a cell changes iff it is among them, and the flag says whether
one of them was 1 before the first flip. -/
theorem flips_spec {α : Type} (on : α → Bool) (pos : α → Fin 32 × Fin 64) (l : List α) (acc : Frame × Bool)
    (hl : l.Pairwise fun a b => pos a ≠ pos b) :
    let r := l.foldl (fun acc a =>
      if on a then (acc.1.flip (pos a).1 (pos a).2, acc.2 || acc.1.cell (pos a).1 (pos a).2) else acc) acc
    (∀ row col, r.1.cell row col ≠ acc.1.cell row col ↔ ∃ a ∈ l, on a = true ∧ pos a = (row, col)) ∧
      (r.2 = true ↔ acc.2 = true ∨ ∃ a ∈ l, on a = true ∧ acc.1.cell (pos a).1 (pos a).2 = true) := by
  induction l generalizing acc with
  | nil => simp
  | cons a l ih =>
    obtain ⟨ha, hl⟩ := List.pairwise_cons.mp hl
    simp only [List.foldl_cons]
    cases hon : on a with
    | false =>
      obtain ⟨h1, h2⟩ := ih acc hl
      simp only [Bool.false_eq_true, if_false]
      refine ⟨fun row col => ?_, ?_⟩
      · rw [h1]
        simp [hon]
      · rw [h2]
        simp [hon]
    | true =>
      obtain ⟨h1, h2⟩ := ih (acc.1.flip (pos a).1 (pos a).2, acc.2 || acc.1.cell (pos a).1 (pos a).2) hl
      simp only [if_true]
      have apart : ∀ b ∈ l, (acc.1.flip (pos a).1 (pos a).2).cell (pos b).1 (pos b).2 = acc.1.cell (pos b).1 (pos b).2 := by
        intro b hb
        rw [Frame.cell_flip, if_neg]
        rintro ⟨e1, e2⟩
        exact ha b hb (Prod.ext e1.symm e2.symm)
      refine ⟨fun row col => ?_, ?_⟩
      · have h3 := h1 row col
        simp only at h3
        by_cases hp : pos a = (row, col)
        · have none : ¬∃ b ∈ l, on b = true ∧ pos b = (row, col) := by
            rintro ⟨b, hb, -, e⟩
            exact ha b hb (hp.trans e.symm)
          have h4 := (not_congr h3).mpr none
          rw [Classical.not_not] at h4
          rw [h4, Frame.cell_flip, if_pos ⟨by rw [hp], by rw [hp]⟩]
          simp [hon, hp]
        · have h4 : (acc.1.flip (pos a).1 (pos a).2).cell row col = acc.1.cell row col := by
            rw [Frame.cell_flip, if_neg]
            rintro ⟨e1, e2⟩
            exact hp (Prod.ext e1.symm e2.symm)
          rw [h4] at h3
          rw [h3]
          simp [hp]
      · rw [h2]
        simp only [Bool.or_eq_true, List.mem_cons, exists_eq_or_imp, hon, true_and]
        rw [or_assoc]
        refine or_congr_right (or_congr_right ?_)
        refine exists_congr fun b => and_congr_right fun hb => ?_
        rw [apart b hb]

/-- The cells of a sprite: 8 columns for each of its `n` rows. -/
def spriteCells (n : Nat) : List (Nat × Nat) := (List.range n).flatMap fun r => (List.range 8).map fun c => (r, c)

theorem mem_spriteCells {n : Nat} {p : Nat × Nat} : p ∈ spriteCells n ↔ p.1 < n ∧ p.2 < 8 := by
  obtain ⟨r, c⟩ := p
  simp [spriteCells]

theorem spriteCells_apart (x0 y0 n : Nat) (hn : n ≤ 32) :
    (spriteCells n).Pairwise fun p q => (wrapRow y0 p.1, wrapCol x0 p.2) ≠ (wrapRow y0 q.1, wrapCol x0 q.2) := by
  have nodup : (spriteCells n).Nodup := by
    unfold spriteCells
    rw [List.Nodup, List.pairwise_flatMap]
    refine ⟨fun r _ => ?_, ?_⟩
    · rw [List.pairwise_map]
      exact List.Pairwise.imp (fun hab h => hab (Prod.mk.inj h).2) List.nodup_range
    · refine List.Pairwise.imp (fun hab p hp q hq h => ?_) List.nodup_range
      obtain ⟨c, -, rfl⟩ := List.mem_map.mp hp
      obtain ⟨d, -, rfl⟩ := List.mem_map.mp hq
      exact hab (Prod.mk.inj h).1
  refine List.Pairwise.imp_of_mem ?_ nodup
  intro p q hp hq hne h
  obtain ⟨hp1, hp2⟩ := mem_spriteCells.mp hp
  obtain ⟨hq1, hq2⟩ := mem_spriteCells.mp hq
  obtain ⟨e1, e2⟩ := Prod.mk.inj h
  have e1 := Fin.mk.inj e1
  have e2 := Fin.mk.inj e2
  exact hne (Prod.ext (by omega) (by omega))

/-- Everything drawing a sprite of at most 32 rows does: a cell changes iff a 1 of the sprite lies on it, and `hit` says whether
some such cell was 1 before (R143, R144). -/
theorem drawSprite_spec (x0 y0 n : Nat) (rowByte : Nat → Byte) (f : Frame) (hn : n ≤ 32) :
    (∀ row col, (drawSprite x0 y0 n rowByte f).1.cell row col ≠ f.cell row col ↔
      ∃ r c, r < n ∧ c < 8 ∧ spriteBit (rowByte r) c = true ∧ wrapRow y0 r = row ∧ wrapCol x0 c = col) ∧
    ((drawSprite x0 y0 n rowByte f).2 = true ↔
      ∃ r c, r < n ∧ c < 8 ∧ spriteBit (rowByte r) c = true ∧ f.cell (wrapRow y0 r) (wrapCol x0 c) = true) := by
  have h := flips_spec (fun p : Nat × Nat => spriteBit (rowByte p.1) p.2) (fun p => (wrapRow y0 p.1, wrapCol x0 p.2))
    (spriteCells n) (f, false) (spriteCells_apart x0 y0 n hn)
  have e : drawSprite x0 y0 n rowByte f = (spriteCells n).foldl (fun acc p =>
      if spriteBit (rowByte p.1) p.2 then
        (acc.1.flip (wrapRow y0 p.1) (wrapCol x0 p.2), acc.2 || acc.1.cell (wrapRow y0 p.1) (wrapCol x0 p.2)) else acc)
      (f, false) := by
    simp only [spriteCells, List.foldl_flatMap, List.foldl_map]
    rfl
  rw [e]
  obtain ⟨h1, h2⟩ := h
  refine ⟨fun row col => (h1 row col).trans ?_, h2.trans ?_⟩
  · constructor
    · rintro ⟨⟨r, c⟩, hp, hb, he⟩
      obtain ⟨hr, hc⟩ := mem_spriteCells.mp hp
      obtain ⟨e1, e2⟩ := Prod.mk.inj he
      exact ⟨r, c, hr, hc, hb, e1, e2⟩
    · rintro ⟨r, c, hr, hc, hb, e1, e2⟩
      exact ⟨(r, c), mem_spriteCells.mpr ⟨hr, hc⟩, hb, Prod.ext e1 e2⟩
  · constructor
    · rintro (h | ⟨⟨r, c⟩, hp, hb, he⟩)
      · cases h
      · obtain ⟨hr, hc⟩ := mem_spriteCells.mp hp
        exact ⟨r, c, hr, hc, hb, he⟩
    · rintro ⟨r, c, hr, hc, hb, he⟩
      exact .inr ⟨(r, c), mem_spriteCells.mpr ⟨hr, hc⟩, hb, he⟩

/-- A sprite bit is the bit of its row byte, bit 7 first (R142; log 20). -/
theorem spriteBit_eq (s : Byte) (c : Nat) : spriteBit s c = s.getLsbD (7 - c) := by
  simp only [spriteBit, BitVec.getLsbD, Nat.testBit_eq_decide_div_mod_eq]
  rfl

end Sys2Proof.Machine
end

