-- ==== Sys2Proof/Laws/Memory.lean ====
section
/-! SUPPORT. Memory: a read after a write, ranges of bytes, and that every operation keeps the canonical form. -/

namespace Sys2Proof.Machine

namespace Memory

@[simp] theorem read_nil (a : Nat) : Memory.read [] a = initialByte a := rfl

theorem read_cons (c : Host.Cell) (m : Memory) (a : Nat) :
    Memory.read (c :: m) a = if a = c.1 then c.2 else Memory.read m a := rfl

/-- Erasing an address makes it read as its reset contents and leaves every other address alone. -/
theorem read_erase (m : Memory) (a b : Nat) : (m.erase a).read b = if b = a then initialByte b else m.read b := by
  induction m with
  | nil => simp [Memory.erase]
  | cons c m ih =>
    have ih' : Memory.read (List.filter (fun c => c.1 != a) m) b = if b = a then initialByte b else Memory.read m b := ih
    by_cases hc : c.1 = a
    · have : Memory.erase (c :: m) a = List.filter (fun c => c.1 != a) m := by simp [Memory.erase, hc]
      rw [this, ih', read_cons, hc]
      split <;> rfl
    · have : Memory.erase (c :: m) a = c :: List.filter (fun c => c.1 != a) m := by simp [Memory.erase, hc]
      rw [this, read_cons, read_cons, ih']
      by_cases hb : b = c.1
      · simp [hb, hc]
      · simp [hb]

/-- Inserting an address that is not listed makes it read as the inserted byte and leaves every other address alone. -/
theorem read_insert (m : Memory) (a b : Nat) (v : Byte) (h : ∀ c ∈ m, c.1 ≠ a) :
    (Memory.insert a v m).read b = if b = a then v else m.read b := by
  induction m with
  | nil => rfl
  | cons c m ih =>
    have hc : c.1 ≠ a := h c (by simp)
    have ih := ih fun d hd => h d (by simp [hd])
    have hi : Memory.insert a v (c :: m) = if a < c.1 then (a, v) :: c :: m else c :: Memory.insert a v m := rfl
    rw [hi]
    split
    · rfl
    · rw [read_cons, ih, read_cons]
      by_cases hb : b = c.1
      · simp [hb, hc]
      · simp [hb]

theorem mem_erase {m : Memory} {a : Nat} {c : Host.Cell} : c ∈ m.erase a ↔ c ∈ m ∧ c.1 ≠ a := by
  simp [Memory.erase]

/-- A read after a write (R47): the byte written at its address, every other address as before. -/
theorem read_write (m : Memory) (a b : Nat) (v : Byte) : (m.write a v).read b = if b = a then v else m.read b := by
  unfold Memory.write
  split
  · rename_i hv
    rw [read_erase]
    split
    · rename_i hb
      rw [hb, hv]
    · rfl
  · rw [read_insert _ _ _ _ fun c hc => (mem_erase.1 hc).2, read_erase]
    split <;> rfl

/-- Bytes stored at ascending addresses (R45): the stored range reads as the bytes, every other address as before. -/
theorem read_writeBytes (m : Memory) (a : Nat) (vs : List Byte) (b : Nat) :
    (m.writeBytes a vs).read b = if h : a ≤ b ∧ b - a < vs.length then vs[b - a] else m.read b := by
  induction vs generalizing m a with
  | nil => simp [Memory.writeBytes]
  | cons v vs ih =>
    rw [Memory.writeBytes, ih]
    by_cases hab : a = b
    · subst hab
      rw [dif_neg (by omega), dif_pos (by simp)]
      simp [read_write]
    · by_cases hlt : a + 1 ≤ b ∧ b - (a + 1) < vs.length
      · have h2 : a ≤ b ∧ b - a < (v :: vs).length := by simp only [List.length_cons]; omega
        rw [dif_pos hlt, dif_pos h2]
        have : b - a = b - (a + 1) + 1 := by omega
        simp [this]
      · have h2 : ¬(a ≤ b ∧ b - a < (v :: vs).length) := by simp only [List.length_cons]; omega
        rw [dif_neg hlt, dif_neg h2, read_write, if_neg (Ne.symm hab)]

/-! #### The canonical form -/

theorem risingFrom_mono {m : Memory} {l k : Nat} (h : Memory.risingFrom k m = true) (hl : l ≤ k) :
    Memory.risingFrom l m = true := by
  cases m with
  | nil => rfl
  | cons c m =>
    simp only [Memory.risingFrom, Bool.and_eq_true, decide_eq_true_eq] at h ⊢
    exact ⟨by omega, h.2⟩

theorem risingFrom_erase {m : Memory} {l a : Nat} (h : Memory.risingFrom l m = true) :
    Memory.risingFrom l (m.erase a) = true := by
  induction m generalizing l with
  | nil => rfl
  | cons c m ih =>
    simp only [Memory.risingFrom, Bool.and_eq_true, decide_eq_true_eq] at h
    by_cases hc : c.1 = a
    · have : Memory.erase (c :: m) a = Memory.erase m a := by simp [Memory.erase, hc]
      rw [this]
      exact risingFrom_mono (ih h.2) (by omega)
    · have : Memory.erase (c :: m) a = c :: Memory.erase m a := by simp [Memory.erase, hc]
      rw [this]
      simp only [Memory.risingFrom, Bool.and_eq_true, decide_eq_true_eq]
      exact ⟨h.1, ih h.2⟩

theorem risingFrom_insert {m : Memory} {l a : Nat} {v : Byte} (h : Memory.risingFrom l m = true) (hl : l ≤ a)
    (hm : ∀ c ∈ m, c.1 ≠ a) : Memory.risingFrom l (Memory.insert a v m) = true := by
  induction m generalizing l with
  | nil => simp [Memory.insert, Memory.risingFrom, hl]
  | cons c m ih =>
    have hc : c.1 ≠ a := hm c (by simp)
    simp only [Memory.risingFrom, Bool.and_eq_true, decide_eq_true_eq] at h
    have hi : Memory.insert a v (c :: m) = if a < c.1 then (a, v) :: c :: m else c :: Memory.insert a v m := rfl
    rw [hi]
    split
    · simp only [Memory.risingFrom, Bool.and_eq_true, decide_eq_true_eq]
      exact ⟨hl, by omega, h.2⟩
    · simp only [Memory.risingFrom, Bool.and_eq_true, decide_eq_true_eq]
      exact ⟨h.1, ih h.2 (by omega) fun d hd => hm d (by simp [hd])⟩

theorem mem_insert {m : Memory} {a : Nat} {v : Byte} {c : Host.Cell} (h : c ∈ Memory.insert a v m) :
    c = (a, v) ∨ c ∈ m := by
  induction m with
  | nil => simpa [Memory.insert] using h
  | cons d m ih =>
    have hi : Memory.insert a v (d :: m) = if a < d.1 then (a, v) :: d :: m else d :: Memory.insert a v m := rfl
    rw [hi] at h
    split at h
    · simpa using h
    · rcases List.mem_cons.1 h with h | h
      · simp [h]
      · rcases ih h with h | h <;> simp [h]

theorem wf_iff {m : Memory} : m.wf = true ↔
    Memory.risingFrom 0 m = true ∧ ∀ c ∈ m, c.1 < 4096 ∧ c.2 ≠ initialByte c.1 := by
  simp only [Memory.wf, Bool.and_eq_true, List.all_eq_true, decide_eq_true_eq]
  exact Iff.rfl

theorem wf_nil : Memory.wf [] = true := by simp [wf_iff, Memory.risingFrom]

theorem wf_erase {m : Memory} {a : Nat} (h : m.wf = true) : (m.erase a).wf = true := by
  rw [wf_iff] at h ⊢
  exact ⟨risingFrom_erase h.1, fun c hc => h.2 c (mem_erase.1 hc).1⟩

/-- A write inside `MEM` keeps the canonical form. -/
theorem wf_write {m : Memory} {a : Nat} {v : Byte} (h : m.wf = true) (ha : a < 4096) : (m.write a v).wf = true := by
  unfold Memory.write
  split
  · exact wf_erase h
  · rename_i hv
    have he := wf_iff.1 (wf_erase (a := a) h)
    rw [wf_iff]
    refine ⟨risingFrom_insert he.1 (by omega) fun c hc => (mem_erase.1 hc).2, fun c hc => ?_⟩
    rcases mem_insert hc with rfl | hc
    · exact ⟨ha, hv⟩
    · exact he.2 c hc

/-- Stores at ascending addresses inside `MEM` keep the canonical form. -/
theorem wf_writeBytes {m : Memory} {a : Nat} {vs : List Byte} (h : m.wf = true) (ha : a + vs.length ≤ 4096) :
    (m.writeBytes a vs).wf = true := by
  induction vs generalizing m a with
  | nil => exact h
  | cons v vs ih =>
    simp only [List.length_cons] at ha
    exact ih (wf_write h (by omega)) (by omega)

end Memory

/-! #### The same for the state's memory -/

/-- What a store of bytes leaves at each address (R45). -/
theorem State.readMem_writeMem (s : State) (a : Nat) (vs : List Byte) (b : Nat) :
    (s.writeMem a vs).readMem b = if h : a ≤ b ∧ b - a < vs.length then vs[b - a] else s.readMem b :=
  Memory.read_writeBytes s.mem a vs b

/-- Outside the stored bytes every address reads as before. -/
theorem State.readMem_writeMem_outside (s : State) (a : Nat) (vs : List Byte) (b : Nat)
    (h : b < a ∨ a + vs.length ≤ b) : (s.writeMem a vs).readMem b = s.readMem b := by
  rw [State.readMem_writeMem, dif_neg (by omega)]

end Sys2Proof.Machine
end

