-- ==== Sys2Proof/Laws/Ops.lean ====
section
/-! SUPPORT. One lemma per shared operation that says everything it can do, and the inversion of `step`. -/

namespace Sys2Proof.Machine

namespace State

/-- The bounds check: a fault with nothing else changed, or the body (R44, R165). -/
theorem checkRange_cases (s : State) (len : Nat) (body : State) :
    (1 ≤ len ∧ s.idx.toNat + len - 1 > 4095 ∧ s.checkRange len body = s.setRun (.faulted (.memOutOfBounds s.instrAddr))) ∨
    ((len = 0 ∨ s.idx.toNat + len - 1 ≤ 4095) ∧ s.checkRange len body = body) := by
  unfold checkRange rangeOutside
  by_cases h : 1 ≤ len ∧ s.idx.toNat + len - 1 > 4095
  · left
    exact ⟨h.1, h.2, by simp only [h, and_self, decide_true, if_true]; rfl⟩
  · right
    refine ⟨by omega, ?_⟩
    rw [decide_eq_false h]
    rfl

theorem checkRange_inside (s : State) (len : Nat) (body : State) (h : len = 0 ∨ s.idx.toNat + len - 1 ≤ 4095) :
    s.checkRange len body = body := by
  rcases s.checkRange_cases len body with ⟨h1, h2, -⟩ | ⟨-, h⟩
  · omega
  · exact h

theorem checkRange_outside (s : State) (len : Nat) (body : State) (h : 1 ≤ len ∧ s.idx.toNat + len - 1 > 4095) :
    s.checkRange len body = s.setRun (.faulted (.memOutOfBounds s.instrAddr)) := by
  rcases s.checkRange_cases len body with ⟨-, -, h⟩ | ⟨h1, -⟩
  · exact h
  · omega

/-- The wait: a key, a quit, or held (R154). -/
theorem waitForKey_cases (s : State) (x : Reg) :
    (∃ k, s.hostInput.waitkey = some k ∧ s.waitForKey x = (s.writeV x (BitVec.ofNat 8 k.val)).setHold none) ∨
    (s.hostInput.waitkey = none ∧ s.hostInput.quit = true ∧ s.waitForKey x = (s.setHold none).setRun .halted) ∨
    (s.hostInput.waitkey = none ∧ s.hostInput.quit = false ∧ s.waitForKey x = s.setHold (some x)) := by
  unfold waitForKey
  cases hk : s.hostInput.waitkey with
  | some k => exact .inl ⟨k, rfl, rfl⟩
  | none =>
    cases hq : s.hostInput.quit
    · exact .inr (.inr ⟨rfl, rfl, rfl⟩)
    · exact .inr (.inl ⟨rfl, rfl, rfl⟩)

/-- The quit test: `RUN` alone can change (R172). -/
theorem quitTest_cases (s : State) :
    (s.hostInput.quit = true ∧ s.quitTest = s.setRun .halted) ∨ (s.hostInput.quit = false ∧ s.quitTest = s) := by
  unfold quitTest
  cases s.hostInput.quit
  · exact .inr ⟨rfl, rfl⟩
  · exact .inl ⟨rfl, rfl⟩

/-- The phases after execute, by what execute left (R33, R166, R172, R187). -/
theorem endIteration_cases (s : State) :
    (s.run ≠ .running ∧ s.endIteration = s) ∨
    (s.run = .running ∧ (∃ x, s.hold = some x) ∧ s.endIteration = s.consumeInput) ∨
    (s.run = .running ∧ s.hold = none ∧ s.hostInput.quit = true ∧
      s.endIteration = (s.poll.decay.setRun .halted).consumeInput) ∨
    (s.run = .running ∧ s.hold = none ∧ s.hostInput.quit = false ∧ s.endIteration = s.poll.decay.consumeInput) := by
  unfold endIteration
  cases hr : s.run with
  | halted => exact .inl ⟨by simp, rfl⟩
  | faulted f => exact .inl ⟨by simp, rfl⟩
  | running =>
    cases hh : s.hold with
    | some x => exact .inr (.inl ⟨rfl, ⟨x, rfl⟩, rfl⟩)
    | none =>
      rcases s.poll.present.decay.quitTest_cases with ⟨hq, he⟩ | ⟨hq, he⟩
      · exact .inr (.inr (.inl ⟨rfl, rfl, hq, congrArg consumeInput he⟩))
      · exact .inr (.inr (.inr ⟨rfl, rfl, hq, congrArg consumeInput he⟩))

/-- The fetch (R31): both bytes where `pc` is at most 4094, nothing otherwise. -/
theorem fetch_cases (s : State) :
    (s.pc.toNat > 4094 ∧ s.fetch = none) ∨
    (s.pc.toNat ≤ 4094 ∧ s.fetch = some (s.readMem s.pc.toNat, s.readMem (s.pc.toNat + 1))) := by
  unfold fetch
  by_cases h : s.pc.toNat > 4094
  · exact .inl ⟨h, if_pos h⟩
  · exact .inr ⟨by omega, if_neg h⟩

/-- The two ordered updates of a flag-writing instruction (R116), register by register. -/
theorem readV_flagThenResult (s : State) (x y r : Reg) (flag : Byte → Byte → Bool) (result : Byte → Byte → Byte) :
    (s.flagThenResult x y flag result).readV r =
      let f := flagByte (flag (s.readV x) (s.readV y))
      if r = x then result (if x = vF then f else s.readV x) (if y = vF then f else s.readV y)
      else if r = vF then f else s.readV r := by
  simp only [flagThenResult, readV_writeV]

end State

/-- Every instruction has a meaning and answers a next state (R157: no mode and no privilege stops one). -/
theorem exec_next (i : Instr) (s : State) : ∃ t, exec i s = .next t := by
  cases i <;> exact ⟨_, rfl⟩

/-- Everything a step that answers a next state can do (R23, R30, R187). -/
theorem step_cases {s t : State} (h : step s = .next t) :
    (s.run = .halted ∧ t = s) ∨
    (s.run = .running ∧ ∃ x, s.hold = some x ∧ t = (s.waitForKey x).endIteration) ∨
    (s.run = .running ∧ s.hold = none ∧ s.fetch = none ∧ t = s.fetchFault) ∨
    (s.run = .running ∧ s.hold = none ∧ ∃ b1 b2, s.fetch = some (b1, b2) ∧
      (∃ c1 c2, decode b1 b2 = .invalid c1 c2) ∧ t = s.invalidFault) ∨
    (s.run = .running ∧ s.hold = none ∧ ∃ b1 b2 i u, s.fetch = some (b1, b2) ∧ decode b1 b2 = .op i ∧
      exec i s.advance = .next u ∧ t = u.endIteration) := by
  unfold step at h
  cases hr : s.run with
  | halted =>
    simp only [hr] at h
    exact .inl ⟨rfl, (Host.Outcome.next.inj h).symm⟩
  | faulted f =>
    simp only [hr] at h
    cases h
  | running =>
    simp only [hr] at h
    cases hh : s.hold with
    | some x =>
      simp only [hh] at h
      exact .inr (.inl ⟨rfl, x, rfl, (Host.Outcome.next.inj h).symm⟩)
    | none =>
      simp only [hh] at h
      unfold iterate at h
      cases hf : s.fetch with
      | none =>
        simp only [hf] at h
        exact .inr (.inr (.inl ⟨rfl, rfl, rfl, (Host.Outcome.next.inj h).symm⟩))
      | some p =>
        obtain ⟨b1, b2⟩ := p
        simp only [hf] at h
        cases hd : decode b1 b2 with
        | invalid c1 c2 =>
          simp only [hd] at h
          exact .inr (.inr (.inr (.inl ⟨rfl, rfl, b1, b2, rfl, ⟨c1, c2, hd⟩, (Host.Outcome.next.inj h).symm⟩)))
        | op i =>
          simp only [hd] at h
          obtain ⟨u, hu⟩ := exec_next i s.advance
          rw [hu] at h
          exact .inr (.inr (.inr (.inr ⟨rfl, rfl, b1, b2, i, u, rfl, hd, hu, (Host.Outcome.next.inj h).symm⟩)))

end Sys2Proof.Machine
end

