-- ==== Sys2Proof/Laws/Exec.lean ====
section
/-! SUPPORT. What every meaning leaves alone, and the forms the meanings with more than one outcome take. -/

namespace Sys2Proof.Machine

theorem execRet_empty (s : State) (h : s.sp.val = 0) :
    execRet s = .next (s.setRun (.faulted (.stackUnderflow s.instrAddr))) := by
  simp [execRet, h]

theorem execRet_pop (s : State) (h : 0 < s.sp.val) : execRet s = .next (s.popPc h) := by
  simp [execRet, h]

theorem execCall_full (nnn : Nat) (s : State) (h : s.sp.val = 16) :
    execCall nnn s = .next (s.setRun (.faulted (.stackOverflow s.instrAddr))) := by
  simp [execCall, h]

theorem execCall_push (nnn : Nat) (s : State) (h : s.sp.val < 16) :
    execCall nnn s = .next ((s.push s.pc h).setPc (BitVec.ofNat 16 nnn)) := by
  simp [execCall, h]

/-- The skip as a write of `pc`, for the six skips. -/
theorem skip_next (s : State) (c : Bool) :
    (Host.Outcome.next (s.skipIf c) : Host.Outcome State Fault Refusal) =
      .next (s.setPc (if c then s.pc + 2 else s.pc)) := by
  rw [State.skipIf_eq_setPc]

/-- A property that the fault state and the body share holds of the checked operation. -/
theorem State.checkRange_of {P : State → Prop} (s : State) (len : Nat) (body : State)
    (hf : P (s.setRun (.faulted (.memOutOfBounds s.instrAddr)))) (hb : P body) : P (s.checkRange len body) := by
  rcases s.checkRange_cases len body with ⟨-, -, h⟩ | ⟨-, h⟩ <;> rw [h]
  · exact hf
  · exact hb

/-- A property of every form of WAITKEY's transaction holds of it. -/
theorem State.waitForKey_of {P : State → Prop} (s : State) (x : Reg)
    (hk : ∀ k : Fin 16, P ((s.writeV x (BitVec.ofNat 8 k.val)).setHold none))
    (hq : P ((s.setHold none).setRun .halted)) (hh : P (s.setHold (some x))) : P (s.waitForKey x) := by
  rcases s.waitForKey_cases x with ⟨k, -, h⟩ | ⟨-, -, h⟩ | ⟨-, -, h⟩ <;> rw [h]
  · exact hk k
  · exact hq
  · exact hh

/-- The forms of what an instruction leaves: a property that holds of each holds of the next state. -/
theorem exec_forms {P : State → Prop} {i : Instr} {s t : State} (h : exec i s = .next t)
    (regs : ∀ x b, P (s.writeV x b)) (flags : ∀ x y f r, P (s.flagThenResult x y f r)) (load : ∀ f, P (s.setRegs f))
    (rnd : ∀ x b, P (s.rngStep.writeV x b)) (idx : ∀ w, P (s.setIdx w)) (pc : ∀ w, P (s.setPc w))
    (push : ∀ w hs a, P ((s.push w hs).setPc a)) (pop : ∀ hs, P (s.popPc hs)) (mem : ∀ a vs, P (s.writeMem a vs))
    (fb : ∀ f, P (s.setFb f)) (draw : ∀ f b, P ((s.setFb f).writeV vF b)) (dt : ∀ b, P (s.setDt b))
    (st : ∀ b, P (s.setSt b)) (fault : ∀ f, P (s.setRun (.faulted f)))
    (key : ∀ x b, P ((s.writeV x b).setHold none)) (quit : P ((s.setHold none).setRun .halted))
    (hold : ∀ x, P (s.setHold (some x))) : P t := by
  have skip : ∀ c, P (s.skipIf c) := fun c => by
    rw [State.skipIf_eq_setPc]
    exact pc _
  cases i with
  | ret =>
    rcases Nat.eq_zero_or_pos s.sp.val with h0 | h0
    · cases (execRet_empty s h0).symm.trans h
      exact fault _
    · cases (execRet_pop s h0).symm.trans h
      exact pop _
  | call nnn =>
    by_cases h0 : s.sp.val < 16
    · cases (execCall_push nnn s h0).symm.trans h
      exact push _ _ _
    · cases (execCall_full nnn s (by omega)).symm.trans h
      exact fault _
  | cls => cases h; exact fb _
  | jmp nnn => cases h; exact pc _
  | jmpoff nnn => cases h; exact pc _
  | skeqi x nn => cases h; exact skip _
  | sknei x nn => cases h; exact skip _
  | skeqr x y => cases h; exact skip _
  | skner x y => cases h; exact skip _
  | skkey x => cases h; exact skip _
  | sknkey x => cases h; exact skip _
  | ldimm x nn => cases h; exact regs _ _
  | addimm x nn => cases h; exact regs _ _
  | mov x y => cases h; exact regs _ _
  | or x y => cases h; exact regs _ _
  | and x y => cases h; exact regs _ _
  | xor x y => cases h; exact regs _ _
  | add x y => cases h; exact flags _ _ _ _
  | sub x y => cases h; exact flags _ _ _ _
  | shr x y => cases h; exact flags _ _ _ _
  | rsub x y => cases h; exact flags _ _ _ _
  | shl x y => cases h; exact flags _ _ _ _
  | ldidx nnn => cases h; exact idx _
  | addidx x => cases h; exact idx _
  | ldfont x => cases h; exact idx _
  | rnd x nn => cases h; exact rnd _ _
  | draw x y n => cases h; exact State.checkRange_of _ _ _ (fault _) (draw _ _)
  | lddt x => cases h; exact regs _ _
  | stdt x => cases h; exact dt _
  | stst x => cases h; exact st _
  | stbcd x => cases h; exact State.checkRange_of _ _ _ (fault _) (mem _ _)
  | stregs x => cases h; exact State.checkRange_of _ _ _ (fault _) (mem _ _)
  | ldregs x => cases h; exact State.checkRange_of _ _ _ (fault _) (load _)
  | waitkey x => cases h; exact State.waitForKey_of _ _ (fun k => key _ _) quit (hold _)

/-- No instruction changes the key mask or takes an answer from the host's list: that is left to the end of the iteration. -/
theorem exec_host {i : Instr} {s t : State} (h : exec i s = .next t) :
    t.inputs = s.inputs ∧ t.draws = s.draws ∧ t.keys = s.keys :=
  exec_forms (P := fun t => t.inputs = s.inputs ∧ t.draws = s.draws ∧ t.keys = s.keys) h
    (fun _ _ => ⟨rfl, rfl, rfl⟩) (fun _ _ _ _ => ⟨rfl, rfl, rfl⟩) (fun _ => ⟨rfl, rfl, rfl⟩) (fun _ _ => ⟨rfl, rfl, rfl⟩)
    (fun _ => ⟨rfl, rfl, rfl⟩) (fun _ => ⟨rfl, rfl, rfl⟩) (fun _ _ _ => ⟨rfl, rfl, rfl⟩) (fun _ => ⟨rfl, rfl, rfl⟩)
    (fun _ _ => ⟨rfl, rfl, rfl⟩) (fun _ => ⟨rfl, rfl, rfl⟩) (fun _ _ => ⟨rfl, rfl, rfl⟩) (fun _ => ⟨rfl, rfl, rfl⟩)
    (fun _ => ⟨rfl, rfl, rfl⟩) (fun _ => ⟨rfl, rfl, rfl⟩) (fun _ _ => ⟨rfl, rfl, rfl⟩) ⟨rfl, rfl, rfl⟩
    (fun _ => ⟨rfl, rfl, rfl⟩)

theorem exec_hostInput {i : Instr} {s t : State} (h : exec i s = .next t) : t.hostInput = s.hostInput := by
  obtain ⟨h1, h2, -⟩ := exec_host h
  simp only [State.hostInput, h1, h2]

/-- `RUN` after a meaning: unchanged, or one of the five ways a run ends in execute, each with all it does (R154, R162, R163,
R165). -/
theorem exec_run {i : Instr} {s t : State} (h : exec i s = .next t) :
    t.run = s.run ∨
    (∃ x, i = .waitkey x ∧ s.hostInput.waitkey = none ∧ s.hostInput.quit = true ∧
      t = (s.setHold none).setRun .halted) ∨
    (i = .ret ∧ s.sp.val = 0 ∧ t = s.setRun (.faulted (.stackUnderflow s.instrAddr))) ∨
    ((∃ nnn, i = .call nnn) ∧ s.sp.val = 16 ∧ t = s.setRun (.faulted (.stackOverflow s.instrAddr))) ∨
    ((∃ x, i = .stbcd x ∨ i = .stregs x ∨ i = .ldregs x ∨ ∃ y n, i = .draw x y n) ∧
      t = s.setRun (.faulted (.memOutOfBounds s.instrAddr))) := by
  have checked : ∀ len body, body.run = s.run →
      (s.checkRange len body).run = s.run ∨ s.checkRange len body = s.setRun (.faulted (.memOutOfBounds s.instrAddr)) := by
    intro len body hb
    rcases s.checkRange_cases len body with ⟨-, -, e⟩ | ⟨-, e⟩ <;> rw [e]
    · exact .inr rfl
    · exact .inl hb
  cases i
  case ret =>
    rcases Nat.eq_zero_or_pos s.sp.val with h0 | h0
    · cases (execRet_empty s h0).symm.trans h
      exact .inr (.inr (.inl ⟨rfl, h0, rfl⟩))
    · cases (execRet_pop s h0).symm.trans h
      exact .inl rfl
  case call nnn =>
    by_cases h0 : s.sp.val < 16
    · cases (execCall_push nnn s h0).symm.trans h
      exact .inl rfl
    · cases (execCall_full nnn s (by omega)).symm.trans h
      exact .inr (.inr (.inr (.inl ⟨⟨_, rfl⟩, by omega, rfl⟩)))
  case waitkey x =>
    cases h
    rcases s.waitForKey_cases x with ⟨k, -, e⟩ | ⟨h1, h2, e⟩ | ⟨-, -, e⟩ <;> rw [e]
    · exact .inl rfl
    · exact .inr (.inl ⟨x, rfl, h1, h2, rfl⟩)
    · exact .inl rfl
  case stbcd x =>
    cases h
    refine Or.imp_right (fun e => .inr (.inr (.inr ⟨⟨x, .inl rfl⟩, e⟩))) (checked _ _ ?_)
    rfl
  case stregs x =>
    cases h
    refine Or.imp_right (fun e => .inr (.inr (.inr ⟨⟨x, .inr (.inl rfl)⟩, e⟩))) (checked _ _ ?_)
    rfl
  case ldregs x =>
    cases h
    refine Or.imp_right (fun e => .inr (.inr (.inr ⟨⟨x, .inr (.inr (.inl rfl))⟩, e⟩))) (checked _ _ ?_)
    rfl
  case draw x y n =>
    cases h
    refine Or.imp_right (fun e => .inr (.inr (.inr ⟨⟨x, .inr (.inr (.inr ⟨y, n, rfl⟩))⟩, e⟩))) (checked _ _ ?_)
    rfl
  all_goals
    left
    cases h
    first
      | rfl
      | (rw [State.skipIf_eq_setPc]; rfl)

/-- The end of the iteration leaves every part alone but the timers, `KEYS`, `RUN` and the host's records (R33, R172). -/
theorem State.endIteration_same (u : State) :
    u.endIteration.v = u.v ∧ u.endIteration.idx = u.idx ∧ u.endIteration.pc = u.pc ∧ u.endIteration.stk = u.stk ∧
      u.endIteration.sp = u.sp ∧ u.endIteration.mem = u.mem ∧ u.endIteration.fb = u.fb ∧ u.endIteration.rng = u.rng ∧
      u.endIteration.hold = u.hold := by
  rcases u.endIteration_cases with ⟨-, e⟩ | ⟨-, -, e⟩ | ⟨-, -, -, e⟩ | ⟨-, -, -, e⟩ <;> rw [e] <;> simp

end Sys2Proof.Machine
end

