-- ==== Sys2Proof/Laws/PerInstr.lean ====
section
/-! SUPPORT. Statements per instruction, one lemma a constructor. `EncodesFamily`: the word of a well-formed instruction fits 16
bits and its top nibble is the instruction's family (spec/30_encoding.md R61, R66). -/

namespace Sys2Proof.Laws

/-- The family of each instruction (R66). -/
def familyOfInstr : Instr → Nat
  | .cls => 0
  | .ret => 0
  | .jmp _ => 1
  | .call _ => 2
  | .skeqi _ _ => 3
  | .sknei _ _ => 4
  | .skeqr _ _ => 5
  | .skner _ _ => 9
  | .ldimm _ _ => 6
  | .addimm _ _ => 7
  | .mov _ _ => 8
  | .or _ _ => 8
  | .and _ _ => 8
  | .xor _ _ => 8
  | .add _ _ => 8
  | .sub _ _ => 8
  | .shr _ _ => 8
  | .rsub _ _ => 8
  | .shl _ _ => 8
  | .ldidx _ => 10
  | .jmpoff _ => 11
  | .rnd _ _ => 12
  | .draw _ _ _ => 13
  | .skkey _ => 14
  | .sknkey _ => 14
  | .lddt _ => 15
  | .stdt _ => 15
  | .stst _ => 15
  | .addidx _ => 15
  | .ldfont _ => 15
  | .stbcd _ => 15
  | .stregs _ => 15
  | .ldregs _ => 15
  | .waitkey _ => 15

/-- Closes the arithmetic of one format: the fields below the top nibble do not reach it. -/
theorem EncodesFamily.ofFields {op rest w : Nat} (hw : w = op * 4096 + rest) (hr : rest < 4096) (ho : op < 16) :
    w < 65536 ∧ w / 4096 = op := by omega

theorem EncodesFamily.xnn (op : Nat) (x : Reg) (nn : Nat) (hn : nn < 256) (ho : op < 16) :
    wordXNN op x nn < 65536 ∧ wordXNN op x nn / 4096 = op :=
  EncodesFamily.ofFields (rest := x.val * 256 + nn) (by unfold wordXNN; omega) (by have := x.isLt; omega) ho

theorem EncodesFamily.xyn (op : Nat) (x y : Reg) (n : Nat) (hn : n < 16) (ho : op < 16) :
    wordXYN op x y n < 65536 ∧ wordXYN op x y n / 4096 = op :=
  EncodesFamily.ofFields (rest := x.val * 256 + y.val * 16 + n) (by unfold wordXYN; omega)
    (by have := x.isLt; have := y.isLt; omega) ho

theorem EncodesFamily.nnn (op nnn : Nat) (hn : nnn < 4096) (ho : op < 16) :
    wordNNN op nnn < 65536 ∧ wordNNN op nnn / 4096 = op :=
  EncodesFamily.ofFields (rest := nnn) (by unfold wordNNN; omega) hn ho

/-- The word of a well-formed instruction has 16 bits and the instruction's family in its top nibble. -/
def EncodesFamily.Statement (i : Instr) : Prop :=
  i.wellFormed = true → i.wordValue < 65536 ∧ i.wordValue / 4096 = familyOfInstr i

theorem EncodesFamily.cls : EncodesFamily.Statement (.cls) :=
  fun _ => by decide

theorem EncodesFamily.ret : EncodesFamily.Statement (.ret) :=
  fun _ => by decide

theorem EncodesFamily.jmp (nnn : Nat) : EncodesFamily.Statement (.jmp nnn) :=
  fun h => EncodesFamily.nnn _ nnn (of_decide_eq_true h) (by decide)

theorem EncodesFamily.call (nnn : Nat) : EncodesFamily.Statement (.call nnn) :=
  fun h => EncodesFamily.nnn _ nnn (of_decide_eq_true h) (by decide)

theorem EncodesFamily.skeqi (x : Reg) (nn : Byte) : EncodesFamily.Statement (.skeqi x nn) :=
  fun _ => EncodesFamily.xnn _ x _ nn.isLt (by decide)

theorem EncodesFamily.sknei (x : Reg) (nn : Byte) : EncodesFamily.Statement (.sknei x nn) :=
  fun _ => EncodesFamily.xnn _ x _ nn.isLt (by decide)

theorem EncodesFamily.skeqr (x : Reg) (y : Reg) : EncodesFamily.Statement (.skeqr x y) :=
  fun _ => EncodesFamily.xyn _ x y _ (by decide) (by decide)

theorem EncodesFamily.skner (x : Reg) (y : Reg) : EncodesFamily.Statement (.skner x y) :=
  fun _ => EncodesFamily.xyn _ x y _ (by decide) (by decide)

theorem EncodesFamily.ldimm (x : Reg) (nn : Byte) : EncodesFamily.Statement (.ldimm x nn) :=
  fun _ => EncodesFamily.xnn _ x _ nn.isLt (by decide)

theorem EncodesFamily.addimm (x : Reg) (nn : Byte) : EncodesFamily.Statement (.addimm x nn) :=
  fun _ => EncodesFamily.xnn _ x _ nn.isLt (by decide)

theorem EncodesFamily.mov (x : Reg) (y : Reg) : EncodesFamily.Statement (.mov x y) :=
  fun _ => EncodesFamily.xyn _ x y _ (by decide) (by decide)

theorem EncodesFamily.or (x : Reg) (y : Reg) : EncodesFamily.Statement (.or x y) :=
  fun _ => EncodesFamily.xyn _ x y _ (by decide) (by decide)

theorem EncodesFamily.and (x : Reg) (y : Reg) : EncodesFamily.Statement (.and x y) :=
  fun _ => EncodesFamily.xyn _ x y _ (by decide) (by decide)

theorem EncodesFamily.xor (x : Reg) (y : Reg) : EncodesFamily.Statement (.xor x y) :=
  fun _ => EncodesFamily.xyn _ x y _ (by decide) (by decide)

theorem EncodesFamily.add (x : Reg) (y : Reg) : EncodesFamily.Statement (.add x y) :=
  fun _ => EncodesFamily.xyn _ x y _ (by decide) (by decide)

theorem EncodesFamily.sub (x : Reg) (y : Reg) : EncodesFamily.Statement (.sub x y) :=
  fun _ => EncodesFamily.xyn _ x y _ (by decide) (by decide)

theorem EncodesFamily.shr (x : Reg) (y : Reg) : EncodesFamily.Statement (.shr x y) :=
  fun _ => EncodesFamily.xyn _ x y _ (by decide) (by decide)

theorem EncodesFamily.rsub (x : Reg) (y : Reg) : EncodesFamily.Statement (.rsub x y) :=
  fun _ => EncodesFamily.xyn _ x y _ (by decide) (by decide)

theorem EncodesFamily.shl (x : Reg) (y : Reg) : EncodesFamily.Statement (.shl x y) :=
  fun _ => EncodesFamily.xyn _ x y _ (by decide) (by decide)

theorem EncodesFamily.ldidx (nnn : Nat) : EncodesFamily.Statement (.ldidx nnn) :=
  fun h => EncodesFamily.nnn _ nnn (of_decide_eq_true h) (by decide)

theorem EncodesFamily.jmpoff (nnn : Nat) : EncodesFamily.Statement (.jmpoff nnn) :=
  fun h => EncodesFamily.nnn _ nnn (of_decide_eq_true h) (by decide)

theorem EncodesFamily.rnd (x : Reg) (nn : Byte) : EncodesFamily.Statement (.rnd x nn) :=
  fun _ => EncodesFamily.xnn _ x _ nn.isLt (by decide)

theorem EncodesFamily.draw (x : Reg) (y : Reg) (n : Nat) : EncodesFamily.Statement (.draw x y n) :=
  fun h => EncodesFamily.xyn _ x y n (of_decide_eq_true h) (by decide)

theorem EncodesFamily.skkey (x : Reg) : EncodesFamily.Statement (.skkey x) :=
  fun _ => EncodesFamily.xnn _ x _ (by decide) (by decide)

theorem EncodesFamily.sknkey (x : Reg) : EncodesFamily.Statement (.sknkey x) :=
  fun _ => EncodesFamily.xnn _ x _ (by decide) (by decide)

theorem EncodesFamily.lddt (x : Reg) : EncodesFamily.Statement (.lddt x) :=
  fun _ => EncodesFamily.xnn _ x _ (by decide) (by decide)

theorem EncodesFamily.stdt (x : Reg) : EncodesFamily.Statement (.stdt x) :=
  fun _ => EncodesFamily.xnn _ x _ (by decide) (by decide)

theorem EncodesFamily.stst (x : Reg) : EncodesFamily.Statement (.stst x) :=
  fun _ => EncodesFamily.xnn _ x _ (by decide) (by decide)

theorem EncodesFamily.addidx (x : Reg) : EncodesFamily.Statement (.addidx x) :=
  fun _ => EncodesFamily.xnn _ x _ (by decide) (by decide)

theorem EncodesFamily.ldfont (x : Reg) : EncodesFamily.Statement (.ldfont x) :=
  fun _ => EncodesFamily.xnn _ x _ (by decide) (by decide)

theorem EncodesFamily.stbcd (x : Reg) : EncodesFamily.Statement (.stbcd x) :=
  fun _ => EncodesFamily.xnn _ x _ (by decide) (by decide)

theorem EncodesFamily.stregs (x : Reg) : EncodesFamily.Statement (.stregs x) :=
  fun _ => EncodesFamily.xnn _ x _ (by decide) (by decide)

theorem EncodesFamily.ldregs (x : Reg) : EncodesFamily.Statement (.ldregs x) :=
  fun _ => EncodesFamily.xnn _ x _ (by decide) (by decide)

theorem EncodesFamily.waitkey (x : Reg) : EncodesFamily.Statement (.waitkey x) :=
  fun _ => EncodesFamily.xnn _ x _ (by decide) (by decide)

end Sys2Proof.Laws
end

