-- ==== Sys2Proof/Tests/Slice0.lean ====
section
/-! SUPPORT. Small tests of the model: ill-formed terms, decoded words written out from spec/30_encoding.md R66, one-step
tests whose expected results are the vectors of spec/95_test_vectors.md (each test names its vector), and for every statement
with hypotheses a witness that meets them. -/

namespace Sys2Proof.Tests

open Sys2Proof Sys2Proof.Machine

/-! ### Well-formedness and decoding -/

theorem test_ill_formed_addresses : (Instr.jmp 4096).wellFormed = false ∧ (Instr.call 4096).wellFormed = false ∧
    (Instr.ldidx 4096).wellFormed = false ∧ (Instr.jmpoff 4096).wellFormed = false := by decide

theorem test_ill_formed_count : (Instr.draw 0 0 16).wellFormed = false := by decide

theorem test_decode_family_0 :
    decodeWord 0x00E0 = .op .cls ∧
    decodeWord 0x00EE = .op .ret := by decide

theorem test_decode_family_1 :
    decodeWord 0x1234 = .op (.jmp 0x234) := by decide

theorem test_decode_family_2 :
    decodeWord 0x2ABC = .op (.call 0xABC) := by decide

theorem test_decode_families_3_4 :
    decodeWord 0x3A7F = .op (.skeqi 10 0x7F) ∧
    decodeWord 0x4A7F = .op (.sknei 10 0x7F) := by decide

theorem test_decode_families_5_9 :
    decodeWord 0x5AB0 = .op (.skeqr 10 11) ∧
    decodeWord 0x9AB0 = .op (.skner 10 11) := by decide

theorem test_decode_families_6_7_C :
    decodeWord 0x6FAB = .op (.ldimm 15 0xAB) ∧
    decodeWord 0x7102 = .op (.addimm 1 0x02) ∧
    decodeWord 0xC00F = .op (.rnd 0 0x0F) := by decide

theorem test_decode_family_8_logic :
    decodeWord 0x8AB0 = .op (.mov 10 11) ∧
    decodeWord 0x8AB1 = .op (.or 10 11) ∧
    decodeWord 0x8AB2 = .op (.and 10 11) ∧
    decodeWord 0x8AB3 = .op (.xor 10 11) := by decide

theorem test_decode_family_8_arithmetic :
    decodeWord 0x8AB4 = .op (.add 10 11) ∧
    decodeWord 0x8AB5 = .op (.sub 10 11) ∧
    decodeWord 0x8AB6 = .op (.shr 10 11) ∧
    decodeWord 0x8AB7 = .op (.rsub 10 11) ∧
    decodeWord 0x8ABE = .op (.shl 10 11) := by decide

theorem test_decode_families_A_B_D :
    decodeWord 0xAFFF = .op (.ldidx 0xFFF) ∧
    decodeWord 0xB300 = .op (.jmpoff 0x300) ∧
    decodeWord 0xDABF = .op (.draw 10 11 15) := by decide

theorem test_decode_family_E :
    decodeWord 0xE09E = .op (.skkey 0) ∧
    decodeWord 0xE1A1 = .op (.sknkey 1) := by decide

theorem test_decode_family_F_timers :
    decodeWord 0xF107 = .op (.lddt 1) ∧
    decodeWord 0xF015 = .op (.stdt 0) ∧
    decodeWord 0xF018 = .op (.stst 0) ∧
    decodeWord 0xF00A = .op (.waitkey 0) := by decide

theorem test_decode_family_F_memory :
    decodeWord 0xF21E = .op (.addidx 2) ∧
    decodeWord 0xF029 = .op (.ldfont 0) ∧
    decodeWord 0xF033 = .op (.stbcd 0) ∧
    decodeWord 0xF255 = .op (.stregs 2) ∧
    decodeWord 0xF165 = .op (.ldregs 1) := by decide

/-- Words of the table of 95_test_vectors.md 2.1 that are `Invalid`. -/
theorem test_decode_invalid :
    decode 0x00 0x00 = .invalid 0x00 0x00 ∧
    decode 0x00 0xE1 = .invalid 0x00 0xE1 ∧
    decode 0x01 0xE0 = .invalid 0x01 0xE0 ∧
    decode 0x5A 0xB1 = .invalid 0x5A 0xB1 ∧
    decode 0x90 0x11 = .invalid 0x90 0x11 ∧
    decode 0x80 0x18 = .invalid 0x80 0x18 ∧
    decode 0x80 0x1F = .invalid 0x80 0x1F ∧
    decode 0xE0 0x9F = .invalid 0xE0 0x9F ∧
    decode 0xF0 0xFF = .invalid 0xF0 0xFF ∧
    decode 0xF0 0x75 = .invalid 0xF0 0x75 := by decide

/-- `WAITKEY` at `0xF00A` placed by its table row. -/
theorem test_table_word : decodeTableWord 16 0xF00A = some (.waitkey 0) ∧ decodeTableWord 16 0x5123 = none := by decide

theorem test_opcode_table_has_34_rows : opcodeTable.length = 34 := by decide

/-- No word matches two rows: two rows differ in a bit that both masks test (95_test_vectors.md 2.1). -/
theorem test_opcode_table_rows_are_apart :
    opcodeTable.Pairwise fun r q => (r.pattern ^^^ q.pattern) &&& (r.mask &&& q.mask) ≠ 0 := by decide

/-! ### One step -/

/-- A host record: no key, no tick, no quit, no answer to a wait. -/
def quiet : HostInput := { keys := 0, ticks := 0, quit := false, waitkey := none }

/-- The state right after reset with one quiet host record and no key down. -/
def boot : State := { State.reset with inputs := [quiet], keys := 0 }

/-- The state with another host record. -/
def withHost (s : State) (h : HostInput) : State := { s with inputs := [h] }

/-- The state after one step that runs the word `w` placed at `pc`. -/
def after (s : State) (w : Nat) : Option State :=
  match step (s.withFetchWord 16 w) with
  | .next t => some t
  | .fault _ => none
  | .refused _ => none

/-- What a faulting step leaves in `RUN`. -/
def runAfter (s : State) (w : Nat) : Option RunStatus := (after s w).map (·.run)

/-- `V[x]` and `VF` after a step. -/
def regAndFlag (s : State) (w : Nat) (x : Reg) : Option (Byte × Byte) := (after s w).map fun t => (t.readV x, t.readV 15)

/-- `boot` with `V0`, `V1` and `VF` set. -/
def regs (a b f : Byte) : State := ((boot.writeV 0 a).writeV 1 b).writeV 15 f

/-- `boot` with `I` set. -/
def atI (i : Word) : State := boot.setIdx i

/-- The bytes at `a .. a + n - 1` after a step. -/
def bytesAfter (s : State) (w a n : Nat) : Option (List Byte) :=
  (after s w).map fun t => (List.range n).map fun k => t.readMem (a + k)

/-- The lit cells among the given (column, row) pairs, and `VF`, after a step. -/
def cellsAfter (s : State) (w : Nat) (cells : List (Fin 64 × Fin 32)) : Option (List Bool × Byte) :=
  (after s w).map fun t => (cells.map fun c => t.fb.cell c.2 c.1, t.readV 15)

/-- K1. -/
theorem test_jmp_K1 : (after boot 0x1ABC).map (·.pc) = some 0xABC := by decide

/-- K4: an odd target. -/
theorem test_jmp_K4 : (after boot 0x1203).map (·.pc) = some 0x203 := by decide

/-- K6. -/
theorem test_call_K6 :
    (after { boot with sp := 15 } 0x2300).map (fun t => (t.stk[15], t.sp, t.pc)) = some (0x202, 16, 0x300) := by decide

/-- K7. -/
theorem test_call_K7 :
    (after { boot with sp := 16 } 0x2300).map (fun t => (t.run, t.sp)) = some (.faulted (.stackOverflow 0x200), 16) := by decide

/-- K9. -/
theorem test_ret_K9 :
    (after { boot with sp := 2, stk := (boot.stk.set 0 0x20A).set 1 0x3F0 } 0x00EE).map (fun t => (t.sp, t.pc, t.stk[1])) =
      some (1, 0x3F0, 0x3F0) := by decide

/-- K10, S14, P4. -/
theorem test_ret_K10 : runAfter boot 0x00EE = some (.faulted (.stackUnderflow 0x200)) := by decide

/-- K11, K12. -/
theorem test_skeqi_K11_K12 :
    (after (boot.writeV 3 0x44) 0x3344).map (·.pc) = some 0x204 ∧
    (after (boot.writeV 3 0x44) 0x3345).map (·.pc) = some 0x202 := by decide

/-- K13, K14. -/
theorem test_sknei_K13_K14 :
    (after (boot.writeV 3 0x44) 0x4344).map (·.pc) = some 0x202 ∧
    (after (boot.writeV 3 0x44) 0x4345).map (·.pc) = some 0x204 := by decide

/-- K15, K16. -/
theorem test_skeqr_K15_K16 :
    (after ((boot.writeV 4 9).writeV 5 9) 0x5450).map (·.pc) = some 0x204 ∧
    (after ((boot.writeV 4 9).writeV 5 8) 0x5450).map (·.pc) = some 0x202 := by decide

/-- K18, K19. -/
theorem test_skner_K18_K19 :
    (after ((boot.writeV 4 9).writeV 5 8) 0x9450).map (·.pc) = some 0x204 ∧
    (after (boot.writeV 4 9) 0x9440).map (·.pc) = some 0x202 := by decide

/-- K21. -/
theorem test_jmpoff_K21 : (after (boot.writeV 0 0xFF) 0xBFFF).map (·.pc) = some 0x10FE := by decide

/-- K23: a taken skip at the top of memory. -/
theorem test_skip_K23 : (after (boot.setPc 0xFFC) 0x3000).map (·.pc) = some 0x1000 := by decide

/-- A1. -/
theorem test_ldimm_A1 : (after boot 0x6FAB).map (·.readV 15) = some 0xAB := by decide

/-- A2. -/
theorem test_addimm_A2 : regAndFlag (regs 0 0xFF 0) 0x7102 1 = some (0x01, 0) := by decide

/-- A4. -/
theorem test_mov_A4 : regAndFlag (regs 0 0x77 0) 0x8010 0 = some (0x77, 0) := by decide

/-- A5. -/
theorem test_or_A5 : regAndFlag (regs 0xF0 0x3C 0x5A) 0x8011 0 = some (0xFC, 0x5A) := by decide

/-- A6. -/
theorem test_and_A6 : regAndFlag (regs 0xF0 0x3C 0x5A) 0x8012 0 = some (0x30, 0x5A) := by decide

/-- A7. -/
theorem test_xor_A7 : regAndFlag (regs 0xF0 0x3C 0x5A) 0x8013 0 = some (0xCC, 0x5A) := by decide

/-- A9 (S8), A10. -/
theorem test_add_A9_A10 :
    regAndFlag (regs 0xFF 0x01 0) 0x8014 0 = some (0x00, 1) ∧ regAndFlag (regs 0x7F 0x80 0) 0x8014 0 = some (0xFF, 0) := by decide

/-- F1, F2. -/
theorem test_add_F1_F2 :
    regAndFlag (regs 0 0x01 0xFF) 0x8F14 15 = some (0x02, 0x02) ∧ regAndFlag (regs 0 0x10 0xF5) 0x81F4 1 = some (0x11, 1) := by decide

/-- A14 (S9), A15. -/
theorem test_sub_A14_A15 :
    regAndFlag (regs 0x01 0x02 0) 0x8015 0 = some (0xFF, 0) ∧ regAndFlag (regs 0x05 0x05 0) 0x8015 0 = some (0x00, 1) := by decide

/-- F4, F5. -/
theorem test_sub_F4_F5 :
    regAndFlag (regs 0 0x03 0x05) 0x8F15 15 = some (0xFE, 0xFE) ∧ regAndFlag (regs 0 0x05 0x09) 0x81F5 1 = some (0x05, 0) := by decide

/-- A18, F7. -/
theorem test_shr_A18_F7 :
    regAndFlag (regs 0x05 0xEE 0) 0x8016 0 = some (0x02, 1) ∧ regAndFlag (regs 0 0 0x03) 0x8F06 15 = some (0x00, 0x00) := by decide

/-- A21, A22. -/
theorem test_rsub_A21_A22 :
    regAndFlag (regs 0x02 0x01 0) 0x8017 0 = some (0xFF, 0) ∧ regAndFlag (regs 0x01 0x03 0) 0x8017 0 = some (0x02, 1) := by decide

/-- F8, F9. -/
theorem test_rsub_F8_F9 :
    regAndFlag (regs 0 0x03 0x05) 0x8F17 15 = some (0x03, 0x03) ∧ regAndFlag (regs 0 0x00 0x09) 0x81F7 1 = some (0x01, 1) := by decide

/-- A24, F11. -/
theorem test_shl_A24_F11 :
    regAndFlag (regs 0x81 0xEE 0) 0x801E 0 = some (0x02, 1) ∧ regAndFlag (regs 0 0 0x80) 0x8F0E 15 = some (0x02, 0x02) := by decide

/-- A28: whatever byte the generator gives. -/
theorem test_rnd_A28 (b : Byte) (r : Nat) (h : Config.rngNext State.reset.rng = (b, r)) :
    ∃ t, exec (.rnd 0 0xFF) boot = .next t ∧ t.readV 0 = b ∧ t.rng = r := by
  have hb : boot.rng = State.reset.rng := rfl
  refine ⟨_, rfl, ?_, ?_⟩
  · rw [State.readV_writeV_same, State.rngByte, hb, h]
    exact BitVec.and_allOnes
  · rw [State.writeV_rng, State.rngStep_rng, hb, h]

/-- M1. -/
theorem test_ldidx_M1 : (after boot 0xAFFF).map (·.idx) = some 0xFFF := by decide

/-- M3, M4. -/
theorem test_addidx_M3_M4 :
    (after ((atI 0x0FFF).writeV 0 1) 0xF01E).map (·.idx) = some 0x1000 ∧
    (after ((atI 0xFFFF).writeV 0 1) 0xF01E).map (·.idx) = some 0 := by decide

/-- M6, M7. -/
theorem test_ldfont_M6_M7 :
    (after (boot.writeV 0 0x0F) 0xF029).map (·.idx) = some 0x4B ∧
    (after (boot.writeV 0 0xFF) 0xF029).map (·.idx) = some 0x4FB := by decide

/-- M8. -/
theorem test_stbcd_M8 : bytesAfter ((atI 0x300).writeV 0 0xFE) 0xF033 0x300 4 = some [2, 5, 4, 0] := by decide

/-- M11, M12. -/
theorem test_stbcd_M11_M12 :
    bytesAfter ((atI 0xFFD).writeV 0 7) 0xF033 0xFFD 3 = some [0, 0, 7] ∧
    runAfter ((atI 0xFFE).writeV 0 7) 0xF033 = some (.faulted (.memOutOfBounds 0x200)) := by decide

/-- M13. -/
theorem test_stregs_M13 :
    bytesAfter ((((atI 0x400).writeV 0 1).writeV 1 2).writeV 2 3) 0xF255 0x400 4 = some [1, 2, 3, 0] := by decide

/-- M16. -/
theorem test_stregs_M16 : runAfter (atI 0xFF1) 0xFF55 = some (.faulted (.memOutOfBounds 0x200)) := by decide

/-- M17. -/
theorem test_ldregs_M17 :
    (after (((atI 0x300).writeMem 0x300 [2, 5, 4]).writeV 3 0x99) 0xF265).map
      (fun t => (t.readV 0, t.readV 1, t.readV 2, t.readV 3)) = some (2, 5, 4, 0x99) := by decide

/-- M18: glyph 0 of the default font. -/
theorem test_ldregs_M18 :
    (after boot 0xF465).map (fun t => (t.readV 0, t.readV 1, t.readV 4)) = some (0xF0, 0x90, 0xF0) := by decide

/-- M20. -/
theorem test_store_to_itself_M20 :
    bytesAfter (((atI 0x200).writeV 0 0x12).writeV 1 0x08) 0xF155 0x200 2 = some [0x12, 0x08] := by decide

/-- The sprite row `b` at 0x300, `I` there, drawn at `(V0, V1)`. -/
def sprite (b x y : Byte) : State := (((atI 0x300).writeMem 0x300 [b]).writeV 0 x).writeV 1 y

/-- W1. -/
theorem test_cls_W1 :
    cellsAfter ((boot.setFb (Frame.blank.flip 31 63)).writeV 15 7) 0x00E0 [(63, 31)] = some ([false], 7) := by decide

/-- W2, W3 (S10). -/
theorem test_draw_W2_W3 :
    cellsAfter (sprite 0x80 3 4) 0xD011 [(3, 4), (10, 4)] = some ([true, false], 0) ∧
    cellsAfter ((sprite 0x80 3 4).setFb (Frame.blank.flip 4 3)) 0xD011 [(3, 4)] = some ([false], 1) := by decide

/-- W4: columns wrap. -/
theorem test_draw_W4 :
    cellsAfter (sprite 0xFF 60 0) 0xD011 [(59, 0), (60, 0), (63, 0), (0, 0), (3, 0), (4, 0)] =
      some ([false, true, true, true, true, false], 0) := by decide

/-- W5. -/
theorem test_draw_W5 : cellsAfter (sprite 0x80 0xC3 0x64) 0xD011 [(3, 4)] = some ([true], 0) := by decide

/-- W10. -/
theorem test_draw_W10 : runAfter (atI 0xFFF) 0xD012 = some (.faulted (.memOutOfBounds 0x200)) := by decide

/-- W11: the coordinates are read before `VF` is written. -/
theorem test_draw_W11 : cellsAfter ((sprite 0x80 0 0).writeV 15 0x3E) 0xDF11 [(62, 0)] = some ([true], 0) := by decide

/-- T1, T5. -/
theorem test_skkey_T1_T5 :
    (after { boot.writeV 2 5 with keys := 0x0020 } 0xE29E).map (·.pc) = some 0x204 ∧
    (after { boot.writeV 2 0x10 with keys := 0xFFFF } 0xE29E).map (·.pc) = some 0x202 := by decide

/-- T4, T6. -/
theorem test_sknkey_T4_T6 :
    (after { boot.writeV 2 5 with keys := 0x0020 } 0xE2A1).map (·.pc) = some 0x202 ∧
    (after { boot.writeV 2 0x10 with keys := 0xFFFF } 0xE2A1).map (·.pc) = some 0x204 := by decide

/-- T7: the poll follows execute. -/
theorem test_poll_T7 :
    (after (withHost (boot.writeV 2 5) { quiet with keys := 0x0020 }) 0xE29E).map (fun t => (t.pc, t.keys)) = some (0x202, 0x0020) := by decide

/-- T9. -/
theorem test_lddt_T9 :
    (after (withHost (boot.setDt 0x2A) { quiet with ticks := 2 }) 0xF107).map (fun t => (t.readV 1, t.dt)) = some (0x2A, 0x28) := by decide

/-- T11, T12. -/
theorem test_stdt_T11_T12 :
    (after (withHost (boot.writeV 0 3) { quiet with ticks := 1 }) 0xF015).map (·.dt) = some 2 ∧
    (after (withHost (boot.writeV 0 3) { quiet with ticks := 200 }) 0xF015).map (·.dt) = some 0 := by decide

/-- T13. -/
theorem test_stst_T13 : (after (boot.writeV 0 0x10) 0xF018).map (·.st) = some 0x10 := by decide

/-- T14, T15. -/
theorem test_decay_T14_T15 :
    (after (withHost ((boot.setDt 5).setSt 2) { quiet with ticks := 3 }) 0x6000).map (fun t => (t.dt, t.st)) = some (2, 0) ∧
    (after (withHost (boot.setDt 5) { quiet with ticks := 3 }) 0x0000).map (·.dt) = some 5 := by decide

/-- T16, T17, and no answer yet: held. -/
theorem test_waitkey_T16_T17 :
    (after (withHost (boot.setDt 9) { quiet with waitkey := some 7, ticks := 60 }) 0xF20A).map
      (fun t => (t.readV 2, t.pc, t.dt)) = some (7, 0x202, 0) ∧
    (after boot 0xF20A).map (·.hold) = some (some 2) := by decide

/-- T18. -/
theorem test_waitkey_T18 : runAfter (withHost boot { quiet with quit := true }) 0xF20A = some .halted := by decide

/-- E2, E8, E3. -/
theorem test_faults_E2_E3_E8 :
    runAfter boot 0x5123 = some (.faulted (.invalidOpcode 0x200)) ∧
    runAfter (withHost boot { quiet with quit := true }) 0x00EE = some (.faulted (.stackUnderflow 0x200)) ∧
    (boot.setPc 0xFFF).fetch = none := by decide

/-- E7, its last step. -/
theorem test_quit_E7 : runAfter (withHost boot { quiet with quit := true }) 0x1200 = some .halted := by decide

/-- X1 (S12). -/
theorem test_disassembly_X1 :
    disassemble [0x12, 0x06, 0x12, 0x04, 0x22, 0x06, 0x00, 0xEE, 0x12, 0x06, 0x51, 0x23, 0xA2, 0x0A, 0xB3, 0x00, 0xD1, 0x25, 0x6A,
      0x3E, 0xF3, 0x0A, 0x8A, 0xB6, 0x24, 0x00, 0xFF] =
    ["; octochip disassembly", "    JMP label0", "    JMP label1", "label1:", "    CALL subroutine0", "label0:", "subroutine0:",
     "    RET", "    JMP label0", "    5123", "    LDIDX @0x20A", "    JMPOFF @0x300", "    DRAW V1, V2, 0x5",
     "    LDIMM VA, 0x3E", "    WAITKEY V3", "    SHR VA, VB", "    CALL subroutine1"] := by decide

/-- X2, X3. -/
theorem test_disassembly_X2_X3 :
    disassemble [0xAB] = ["; octochip disassembly"] ∧
    disassemble [0x12, 0x00, 0x12, 0x00] = ["; octochip disassembly", "label0:", "    JMP label0", "    JMP label0"] := by decide

/-! ### Witnesses: for every statement with hypotheses, a state and operands that meet them all -/

/-- `boot` with `pc` at the last address that can be fetched, holding the word. -/
def atTop (w : Nat) : State := (boot.setPc 0xFFE).withFetchWord 16 w

/-- `boot` with the word placed. -/
def placed (w : Nat) : State := boot.withFetchWord 16 w

/-- The state after a step, or the state itself. -/
def stepped (s : State) : State :=
  match step s with
  | .next t => t
  | .fault _ => s
  | .refused _ => s

/-- A step answers a next state. -/
def steps (s : State) : Bool :=
  match step s with
  | .next _ => true
  | .fault _ => false
  | .refused _ => false

theorem step_stepped {s : State} (h : steps s = true) : step s = .next (stepped s) := by
  unfold steps at h
  unfold stepped
  cases hs : step s with
  | next t => rfl
  | fault f => rw [hs] at h; cases h
  | refused r => rw [hs] at h; cases h

/-- `boot` meets the invariant, and so does a placed word's state, by its parts. -/
theorem inv_boot : boot.Inv := ⟨by decide, by decide, by decide, by decide⟩

theorem witness_DecodeOfEncodeIsTheInstruction :
    (Instr.jmp 4095).wellFormed = true ∧ (Instr.draw 15 0 15).wellFormed = true ∧ (Instr.ldimm 0 255).wellFormed = true := by
  decide

theorem witness_EncodeOfDecodeIsTheWord : decodeWord 0xDABF = .op (.draw 10 11 15) := by decide

theorem witness_DecodeIsInjective :
    decode 0xDA 0xBF = decode 0xDA 0xBF ∧ decode 0x51 0x23 = decode 0x51 0x23 := ⟨rfl, rfl⟩

theorem witness_InvalidWordsAreExactlyTheTabled :
    decode 0x0F 0xFF = .invalid 0x0F 0xFF ∧ decode 0x5F 0xFF = .invalid 0x5F 0xFF ∧ decode 0x80 0x0D = .invalid 0x80 0x0D ∧
      decode 0x9F 0xFF = .invalid 0x9F 0xFF ∧ decode 0xEF 0xFF = .invalid 0xEF 0xFF ∧ decode 0xFF 0xFF = .invalid 0xFF 0xFF := by
  decide

theorem witness_DecoderFollowsTheOpcodeMap : (⟨"WAITKEY", 0xF00A, 0xF0FF⟩ : OpcodeRow) ∈ opcodeTable := by decide

theorem witness_ResetStateIsAsTabled : 79 < 80 ∧ 80 ≤ 80 ∧ 4095 < 4096 := by decide

/-- Clause by clause: an image of the longest length with its last byte, and one a byte longer. -/
theorem witness_ImageIsLoadedVerbatimOrRefused :
    (List.replicate 3584 (0x12 : Byte)).length ≤ 3584 ∧ 3583 < (List.replicate 3584 (0x12 : Byte)).length ∧
      3584 < (List.replicate 3585 (0x12 : Byte)).length ∧ ([0x00, 0xEE] : List Byte).length ≤ 3584 ∧
      0x200 + ([0x00, 0xEE] : List Byte).length ≤ 0x202 :=
  ⟨Nat.le_of_eq List.length_replicate, by rw [List.length_replicate]; decide, by rw [List.length_replicate]; decide, by decide,
    by decide⟩

theorem witness_StepRunsTheDecodedInstruction :
    (atTop 0x6001).run = .running ∧ (atTop 0x6001).hold = none ∧ (atTop 0x6001).pc.toNat ≤ 4094 ∧
      decode ((atTop 0x6001).readMem (atTop 0x6001).pc.toNat) ((atTop 0x6001).readMem ((atTop 0x6001).pc.toNat + 1)) =
        .op (.ldimm 0 1) := by
  decide

theorem witness_PlacedWordIsFetched : decodeTableWord 16 0xFF65 = some (.ldregs 15) := by decide

theorem witness_EndOfIterationPollsAndTestsQuit : boot.run = .running ∧ boot.hold = none := by decide

theorem witness_TimersDecaySaturating :
    (placed 0x6001).run = .running ∧ (placed 0x6001).hold = none ∧ (placed 0x6001).pc.toNat ≤ 4094 ∧
      decode ((placed 0x6001).readMem (placed 0x6001).pc.toNat) ((placed 0x6001).readMem ((placed 0x6001).pc.toNat + 1)) =
        .op (.ldimm 0 1) ∧
      ∃ u, exec (.ldimm 0 1) ((placed 0x6001).setPc ((placed 0x6001).pc + 2)) = .next u ∧ u.run = .running ∧ u.hold = none :=
  ⟨by decide, by decide, by decide, by decide, _, rfl, by decide, by decide⟩

theorem witness_StepKeepsTheInvariant : (placed 0x2FFF).Inv ∧ step (placed 0x2FFF) = .next (stepped (placed 0x2FFF)) :=
  ⟨⟨by decide, by decide, by decide, by decide⟩, step_stepped (by decide)⟩

theorem witness_PcStaysEvenUnderEvenTargets :
    EvenPc (placed 0x2FFE) ∧
      (∀ i, decode ((placed 0x2FFE).readMem (placed 0x2FFE).pc.toNat) ((placed 0x2FFE).readMem ((placed 0x2FFE).pc.toNat + 1)) =
        .op i → EvenTarget (placed 0x2FFE) i) ∧
      step (placed 0x2FFE) = .next (stepped (placed 0x2FFE)) := by
  refine ⟨⟨by decide, by decide⟩, fun i h => ?_, step_stepped (by decide)⟩
  have e : decode ((placed 0x2FFE).readMem (placed 0x2FFE).pc.toNat) ((placed 0x2FFE).readMem ((placed 0x2FFE).pc.toNat + 1)) =
      .op (.call 0xFFE) := by decide
  rw [e] at h
  cases h
  rfl

/-- A faulted and a halted state. -/
theorem witness_StoppedMachineStaysStopped :
    (boot.raise (.stackUnderflow 0x200)).run = .faulted (.stackUnderflow 0x200) ∧ (boot.setRun .halted).run = .halted := by decide

theorem witness_FaultedMachineTakesNoStep :
    (boot.raise (.pcOutOfBounds 0xFFF)).run = .faulted (.pcOutOfBounds 0xFFF) := by decide

/-- `boot` with a quit request and a JMP to itself. -/
def quitting : State := withHost (placed 0x1200) { quiet with quit := true }

/-- `boot` with a quit request, a full stack and a CALL at the last address that can be fetched. -/
def quittingFault : State := withHost { atTop 0x2FFF with sp := 16 } { quiet with quit := true }

/-- A quit that halts, and a fault of execute while a quit is asked for. -/
theorem witness_QuitHaltsAfterFaultFreeIteration :
    quitting.run = .running ∧ step quitting = .next (stepped quitting) ∧ (stepped quitting).run = .halted ∧
      quitting.hostInput.quit = true ∧ quittingFault.run = .running ∧ quittingFault.hold = none ∧
      quittingFault.pc.toNat ≤ 4094 ∧ quittingFault.hostInput.quit = true ∧
      decode (quittingFault.readMem quittingFault.pc.toNat) (quittingFault.readMem (quittingFault.pc.toNat + 1)) =
        .op (.call 0xFFF) ∧
      ∃ u, exec (.call 0xFFF) (quittingFault.setPc (quittingFault.pc + 2)) = .next u ∧
        u.run = .faulted (.stackOverflow 0xFFE) :=
  ⟨by decide, step_stepped (by decide), by decide, by decide, by decide, by decide, by decide, by decide, by decide, _, rfl,
    by decide⟩

theorem witness_FetchFaultsExactlyAbove4094 :
    (boot.setPc 4095).run = .running ∧ (boot.setPc 4095).hold = none ∧ 4094 < (boot.setPc 4095).pc.toNat ∧
      (∃ t a, step (boot.setPc 4095) = .next t ∧ t.run = .faulted (.pcOutOfBounds a)) ∧ ¬4094 < (boot.setPc 4094).pc.toNat :=
  ⟨by decide, by decide, by decide, ⟨_, 4095, rfl, by decide⟩, by decide⟩

/-- A full stack and one with a single free slot. -/
theorem witness_StackOverflowExactlyOnAFullStack :
    ({ boot with sp := 16 } : State).run = .running ∧ ({ boot with sp := 16 } : State).sp.val = 16 ∧
      (∃ t a, exec (.call 4095) { boot with sp := 16 } = .next t ∧ t.run = .faulted (.stackOverflow a)) ∧
      ({ boot with sp := 15 } : State).sp.val ≠ 16 :=
  ⟨by decide, by decide, ⟨_, 0x1FE, rfl, by decide⟩, by decide⟩

theorem witness_StackUnderflowExactlyOnAnEmptyStack :
    boot.run = .running ∧ boot.sp.val = 0 ∧ ∃ t a, exec .ret boot = .next t ∧ t.run = .faulted (.stackUnderflow a) :=
  ⟨by decide, by decide, _, 0x1FE, rfl, by decide⟩

theorem witness_InvalidOpcodeExactlyOnInvalidWords :
    (atTop 0x5123).run = .running ∧ (atTop 0x5123).hold = none ∧ (atTop 0x5123).pc.toNat ≤ 4094 ∧
      step (atTop 0x5123) = .next (stepped (atTop 0x5123)) ∧
      (stepped (atTop 0x5123)).run = .faulted (.invalidOpcode 0xFFE) :=
  ⟨by decide, by decide, by decide, step_stepped (by decide), by decide⟩

/-- For each of the four, the first `I` outside and the last inside. -/
theorem witness_MemOutOfBoundsExactlyPast4095 :
    boot.run = .running ∧ (atI 4094).idx.toNat + 2 > 4095 ∧ ¬(atI 4093).idx.toNat + 2 > 4095 ∧
      (atI 4081).idx.toNat + (15 : Reg).val > 4095 ∧ ¬(atI 4080).idx.toNat + (15 : Reg).val > 4095 ∧
      (1 ≤ 15 ∧ (atI 4082).idx.toNat + 15 - 1 > 4095) ∧ ¬(atI 4081).idx.toNat + 15 - 1 > 4095 ∧ ¬1 ≤ 0 := by
  decide

theorem witness_OtherInstructionsNeverFault :
    boot.run = .running ∧ (∀ nnn, Instr.waitkey 3 ≠ .call nnn) ∧ Instr.waitkey 3 ≠ .ret ∧ (∀ x, Instr.waitkey 3 ≠ .stbcd x) ∧
      (∀ x, Instr.waitkey 3 ≠ .stregs x) ∧ (∀ x, Instr.waitkey 3 ≠ .ldregs x) ∧ (∀ x y n, Instr.waitkey 3 ≠ .draw x y n) := by
  refine ⟨by decide, ?_, ?_, ?_, ?_, ?_, ?_⟩ <;> intros <;> intro h <;> cases h

theorem witness_FaultIsPreciseAndNamesItsFetch :
    (placed 0x00EE).run = .running ∧ step (placed 0x00EE) = .next (stepped (placed 0x00EE)) ∧
      (stepped (placed 0x00EE)).run = .faulted (.stackUnderflow 0x200) :=
  ⟨by decide, step_stepped (by decide), by decide⟩

theorem witness_JmpGoesToItsTarget : 4095 < 4096 ∧ 4094 < 4095 := by decide

theorem witness_CallPushesTheReturnAddress : 4095 < 4096 ∧ ({ boot with sp := 15 } : State).sp.val < 16 := by decide

theorem witness_RetPopsTheLastAddress :
    ({ boot with sp := 1 } : State).sp.val = (0 : Fin 16).val + 1 ∧ ({ boot with sp := 16 } : State).sp.val = (15 : Fin 16).val + 1 := by
  decide

theorem witness_RetResumesAfterTheCall : ({ boot with sp := 15 } : State).sp.val < 16 ∧ boot.sp.val < 16 := by decide

theorem witness_JmpoffAddsV0WithoutReduction : 4095 < 4096 := by decide

/-- For each of the five ways, a step that takes it. -/
theorem witness_EveryWayThePcChanges :
    (stepped (placed 0x6001)).pc.toNat = (placed 0x6001).pc.toNat + 2 ∧
      (stepped (atTop 0x3000)).pc.toNat = (atTop 0x3000).pc.toNat + 4 ∧ (stepped (placed 0x1FFF)).pc.toNat = 4095 ∧
      (stepped ((placed 0xBFFF).writeV 0 0xFF)).pc.toNat = 255 + 4095 ∧
      (stepped { placed 0x00EE with sp := 1, stk := boot.stk.set 0 0x3F0 }).pc = 0x3F0 ∧
      decode ((atTop 0x3000).readMem (atTop 0x3000).pc.toNat) ((atTop 0x3000).readMem ((atTop 0x3000).pc.toNat + 1)) =
        .op (.skeqi 0 0) ∧ (atTop 0x3000).run = .running ∧ (atTop 0x3000).hold = none ∧ (atTop 0x3000).pc.toNat ≤ 4094 ∧
      step (atTop 0x3000) = .next (stepped (atTop 0x3000)) :=
  ⟨by decide, by decide, by decide, by decide, by decide, by decide, by decide, by decide, by decide, step_stepped (by decide)⟩

theorem witness_AddWritesCarryThenSum : (14 : Reg) ≠ 15 := by decide

theorem witness_SubtractionsWriteNoBorrowThenDifference : (14 : Reg) ≠ 15 := by decide

theorem witness_ShiftsWriteTheBitShiftedOut : (14 : Reg) ≠ 15 ∧ (15 : Reg) = 15 := by decide

theorem witness_FlagIsWrittenOnlyByTheSix :
    ∃ t, exec (.add 0 1) (regs 0xFF 0x01 0) = .next t ∧ t.readV 15 ≠ (regs 0xFF 0x01 0).readV 15 := ⟨_, rfl, by decide⟩

theorem witness_IndexInstructionsWriteI : 4095 < 4096 := by decide

theorem witness_StbcdStoresThreeDigits : (atI 4093).idx.toNat + 2 ≤ 4095 := by decide

theorem witness_StregsStoresTheRange : (atI 4080).idx.toNat + (15 : Reg).val ≤ 4095 := by decide

theorem witness_LdregsLoadsTheRange : (atI 4095).idx.toNat + (0 : Reg).val ≤ 4095 := by decide

theorem witness_LdregsUndoesStregs : (atI 4080).idx.toNat + (15 : Reg).val ≤ 4095 ∧ (15 : Reg) ≤ 15 := by decide

theorem witness_OnlyFourInstructionsReachMemory :
    (∃ t, exec (.stbcd 0) ((atI 0x300).writeV 0 7) = .next t ∧ t.readMem 0x302 ≠ ((atI 0x300).writeV 0 7).readMem 0x302) ∧
      (∃ t, exec (.ldimm 0 1) boot = .next t) ∧
      (∀ x, Instr.ldimm 0 1 ≠ .stbcd x ∧ Instr.ldimm 0 1 ≠ .stregs x ∧ Instr.ldimm 0 1 ≠ .ldregs x) ∧
      (∀ x y n, Instr.ldimm 0 1 ≠ .draw x y n) := by
  refine ⟨⟨_, rfl, by decide⟩, ⟨_, rfl⟩, fun x => ⟨?_, ?_, ?_⟩, fun x y n => ?_⟩ <;> intro h <;> cases h

/-- A change of `I`, of the stack and of the grid; that of the generator depends on the free value `Config.rngNext`. -/
theorem witness_OnlyTheNamedInstructionsWrite :
    (∃ t, exec (.ldidx 1) boot = .next t ∧ t.idx ≠ boot.idx) ∧ (∃ t, exec (.call 1) boot = .next t ∧ t.sp ≠ boot.sp) ∧
      (∃ t, exec .cls (boot.setFb (Frame.blank.flip 31 63)) = .next t ∧ t.fb ≠ (boot.setFb (Frame.blank.flip 31 63)).fb) :=
  ⟨⟨_, rfl, by decide⟩, ⟨_, rfl, by decide⟩, ⟨_, rfl, by decide⟩⟩

/-- A sprite of 15 rows that ends at the last byte of memory. -/
theorem witness_ClsEmptiesTheGrid :
    15 < 16 ∧ RangeInside (atI 4081) 15 ∧ RangeInside (atI 0xFFFF) 0 ∧ ∃ t u, exec .cls (atI 4081) = .next t ∧ RangeInside t 15 ∧
      exec (.draw 0 1 15) t = .next u :=
  ⟨by decide, .inr (by decide), .inl rfl, _, _, rfl, .inr (by decide), rfl⟩

theorem witness_DrawFlipsExactlyTheCoveredCells : 15 < 16 ∧ RangeInside (atI 4081) 15 ∧ 0 < 16 ∧ RangeInside (atI 0xFFFF) 0 :=
  ⟨by decide, .inr (by decide), by decide, .inl rfl⟩

/-- A collision, and an empty grid without one. -/
theorem witness_DrawReportsTheCollision :
    1 < 16 ∧ RangeInside (sprite 0x80 3 4) 1 ∧
      (∃ row col, ((sprite 0x80 3 4).setFb (Frame.blank.flip 4 3)).fb.cell row col = true ∧
        SpriteCovers ((sprite 0x80 3 4).setFb (Frame.blank.flip 4 3)) 0 1 1 row.val col.val) ∧
      ¬∃ row col, (sprite 0x80 3 4).fb.cell row col = true ∧ SpriteCovers (sprite 0x80 3 4) 0 1 1 row.val col.val := by
  refine ⟨by decide, .inr (by decide), ⟨4, 3, by decide, 0, 0, by decide, by decide, by decide, by decide, by decide⟩, ?_⟩
  rintro ⟨row, col, h, -⟩
  simp [sprite, atI, boot, State.reset, Frame.cell] at h

theorem witness_DrawingTwiceGivesTheGridBack :
    1 < 16 ∧ RangeInside (sprite 0x80 3 4) 1 ∧ (0 : Reg) ≠ 15 ∧ (14 : Reg) ≠ 15 ∧
      ∀ row col, (sprite 0x80 3 4).fb.cell row col = false := by
  refine ⟨by decide, .inr (by decide), by decide, by decide, fun row col => ?_⟩
  simp [sprite, atI, boot, State.reset, Frame.cell]

theorem witness_TimersRiseOnlyByTheirStore :
    step ((placed 0xF015).writeV 0 3) = .next (stepped ((placed 0xF015).writeV 0 3)) ∧
      ((placed 0xF015).writeV 0 3).dt.toNat < (stepped ((placed 0xF015).writeV 0 3)).dt.toNat ∧
      step ((placed 0xF018).writeV 0 3) = .next (stepped ((placed 0xF018).writeV 0 3)) ∧
      ((placed 0xF018).writeV 0 3).st.toNat < (stepped ((placed 0xF018).writeV 0 3)).st.toNat :=
  ⟨step_stepped (by decide), by decide, step_stepped (by decide), by decide⟩

theorem witness_SoundTimerIsNeverRead : step (placed 0xF018) = .next (stepped (placed 0xF018)) := step_stepped (by decide)

/-- A key, nothing yet, and a quit. -/
theorem witness_WaitkeyTakesAKeyOrHoldsOrQuits :
    (withHost boot { quiet with waitkey := some 15 }).hostInput.waitkey = some 15 ∧ boot.hostInput.waitkey = none ∧
      boot.hostInput.quit = false ∧ (withHost boot { quiet with quit := true }).hostInput.waitkey = none ∧
      (withHost boot { quiet with quit := true }).hostInput.quit = true := by
  decide

/-- `boot` held by a WAITKEY of `V2`. -/
def held : State := boot.setHold (some 2)

theorem witness_OnlyTheHostLiftsTheWait :
    (placed 0xF20A).hold = none ∧ step (placed 0xF20A) = .next (stepped (placed 0xF20A)) ∧
      (stepped (placed 0xF20A)).hold = some 2 ∧ held.run = .running ∧ held.hold = some 2 ∧ held.hostInput.waitkey = none ∧
      held.hostInput.quit = false ∧ (withHost held { quiet with quit := true }).hold = some 2 ∧
      (withHost held { quiet with quit := true }).hostInput.quit = true ∧
      (withHost held { quiet with waitkey := some 15 }).hostInput.waitkey = some 15 ∧
      (withHost held { quiet with waitkey := some 0, quit := true }).hostInput.waitkey = some 0 :=
  ⟨by decide, step_stepped (by decide), by decide, by decide, by decide, by decide, by decide, by decide, by decide, by decide,
    by decide⟩

theorem witness_HostReachesTheProgramOnlyThroughWaitkey :
    (placed 0xE09E).run = .running ∧ (placed 0xE09E).hold = none ∧
      (∀ x, decode ((placed 0xE09E).readMem (placed 0xE09E).pc.toNat) ((placed 0xE09E).readMem ((placed 0xE09E).pc.toNat + 1)) ≠
        .op (.waitkey x)) ∧
      step (placed 0xE09E) = .next (stepped (placed 0xE09E)) :=
  ⟨by decide, by decide, by decide, step_stepped (by decide)⟩

theorem witness_ListingHasOneEntryPerPair : 0 < ([0x12, 0x00, 0xFF] : List Byte).length / 2 := by decide

end Sys2Proof.Tests
end

section
/-! Pass 1 of the disassembler (spec/30_encoding.md R81): how many entries the listing of an image has, and what each one is. -/

namespace Sys2Proof.Machine

@[simp] theorem listingFrom_nil (a : Nat) : listingFrom a [] = [] := rfl

@[simp] theorem listingFrom_singleton (a : Nat) (b : Byte) : listingFrom a [b] = [] := rfl

@[simp] theorem listingFrom_cons_cons (a : Nat) (b1 b2 : Byte) (rest : List Byte) :
    listingFrom a (b1 :: b2 :: rest) = (a, decode b1 b2) :: listingFrom (a + 2) rest := rfl

theorem listingFrom_length (a : Nat) (image : List Byte) : (listingFrom a image).length = image.length / 2 := by
  induction a, image using listingFrom.induct with
  | case1 a b1 b2 rest ih =>
    rw [listingFrom_cons_cons, List.length_cons, ih]
    simp only [List.length_cons]
    omega
  | case2 a b => simp
  | case3 a => simp

/-- Each step of the recursion consumes two bytes, so entry `j + 1` is entry `j` of the image without its first pair. -/
theorem listingFrom_getElem? (a : Nat) (image : List Byte) (j : Nat) (hj : j < image.length / 2) :
    (listingFrom a image)[j]? = some (a + 2 * j, decode (image.getD (2 * j) 0) (image.getD (2 * j + 1) 0)) := by
  induction a, image using listingFrom.induct generalizing j with
  | case1 a b1 b2 rest ih =>
    cases j with
    | zero => simp
    | succ j =>
      have hrest : j < rest.length / 2 := by
        simp only [List.length_cons] at hj
        omega
      have haddr : a + 2 + 2 * j = a + 2 * (j + 1) := by omega
      rw [listingFrom_cons_cons, List.getElem?_cons_succ, ih j hrest, haddr]
      rfl
  | case2 a b => simp at hj
  | case3 a => simp at hj

/-- Settles O59, from the length and the entries of a listing that starts at any address. -/
theorem listingHasOneEntryPerPair : Obligations.ListingHasOneEntryPerPair := by
  intro image
  exact ⟨listingFrom_length 0x200 image, listingFrom_getElem? 0x200 image⟩

end Sys2Proof.Machine
end

section
/-! JMP (spec/40_control_flow.md R102): its row of the opcode map, its meaning, and the target that cannot be fetched from. -/

namespace Sys2Proof

/-- Family 0x1 is the row of JMP, whose target is the low 12 bits of the word (R66). -/
theorem decodeWord_jmp {w : Word} (h : w.toNat / 4096 = 1) : decodeWord w = .op (.jmp (w.toNat % 4096)) := by
  have hfam : familyOf (highByte w) = 1 := (familyOf_highByte w).trans h
  simp only [decodeWord, decode, hfam, fieldNNN_bytes]

namespace Machine

theorem exec_jmp (nnn : Nat) (s : State) : exec (.jmp nnn) s = .next (s.setPc (BitVec.ofNat 16 nnn)) := rfl

/-- No bytes are fetched from a `pc` whose second byte would lie outside memory (R31, R161). -/
theorem State.fetch_eq_none {s : State} (h : 4094 < s.pc.toNat) : s.fetch = none := by
  rcases s.fetch_cases with ⟨-, hnone⟩ | ⟨hle, -⟩
  · exact hnone
  · omega

/-- Settles O26, from the row of JMP in the decoder and JMP's meaning as a write of `pc`: a 12-bit target fits the word whole. -/
theorem jmpGoesToItsTarget : Obligations.JmpGoesToItsTarget := by
  intro nnn s hnnn
  have hword : (BitVec.ofNat 16 (0x1000 + nnn)).toNat = 0x1000 + nnn := by
    rw [BitVec.toNat_ofNat, Nat.mod_eq_of_lt (by omega)]
  have hpc : (s.setPc (BitVec.ofNat 16 nnn)).pc.toNat = nnn := by
    rw [State.setPc_pc, BitVec.toNat_ofNat, Nat.mod_eq_of_lt (by omega)]
  have htarget : (0x1000 + nnn) % 4096 = nnn := by omega
  refine ⟨?_, s.setPc (BitVec.ofNat 16 nnn), exec_jmp nnn s, hpc, s.setPc_readV _ 15, s.setPc_run _, fun habove => ?_⟩
  · rw [decodeWord_jmp (by omega), hword, htarget]
  · exact State.fetch_eq_none (hpc.symm ▸ habove)

end Machine
end Sys2Proof
end

section
/-! CLS, and a DRAW inside memory on an empty grid (spec/43_display.md R141, R143, R144). -/

namespace Sys2Proof.Machine

@[simp] theorem Frame.cell_blank (row : Fin 32) (col : Fin 64) : Frame.blank.cell row col = false := by
  simp only [Frame.cell, Frame.blank, Vector.getElem_replicate]

theorem exec_cls (s : State) : exec .cls s = .next (s.setFb Frame.blank) := rfl

/-- A DRAW inside memory is its two writes, the grid and then the flag (R143). -/
theorem exec_draw_of_rangeInside {s : State} {n : Nat} (x y : Reg) (h : RangeInside s n) :
    exec (.draw x y n) s = .next ((s.setFb (s.drawn x y n).1).writeV vF (flagByte (s.drawn x y n).2)) :=
  congrArg Host.Outcome.next (s.checkRange_inside n _ h)

/-- A collision needs a cell that was 1 before the draw, and an empty grid has none (R144). -/
theorem State.drawn_hit_of_empty {s : State} {n : Nat} (x y : Reg) (hn : n ≤ 32)
    (hempty : ∀ row col, s.fb.cell row col = false) : (s.drawn x y n).2 = false := by
  rw [Bool.eq_false_iff]
  intro hhit
  obtain ⟨-, hcollision⟩ := drawSprite_spec (s.readV x).toNat (s.readV y).toNat n (fun r => s.readMem (s.effAddr r)) s.fb hn
  obtain ⟨r, c, -, -, -, hlit⟩ := hcollision.mp hhit
  exact Bool.false_ne_true ((hempty _ _).symm.trans hlit)

theorem draw_clears_vF_of_empty {s t : State} {x y : Reg} {n : Nat} (hn : n < 16) (hrange : RangeInside s n)
    (hempty : ∀ row col, s.fb.cell row col = false) (hdraw : exec (.draw x y n) s = .next t) : t.readV 15 = 0 := by
  rw [exec_draw_of_rangeInside x y hrange, State.drawn_hit_of_empty x y (by omega) hempty] at hdraw
  cases hdraw
  exact State.readV_writeV_same _ vF 0

/-- Settles O48, from the cells of the blank grid and the collision flag of a DRAW on an empty grid. -/
theorem clsEmptiesTheGrid : Obligations.ClsEmptiesTheGrid := by
  refine ⟨by decide, fun s => ?_⟩
  have hempty : ∀ row col, (s.setFb Frame.blank).fb.cell row col = false := Frame.cell_blank
  exact ⟨s.setFb Frame.blank, exec_cls s, hempty, s.setFb_readV _ 15, s.setFb_pc _, s.setFb_run _,
    fun _ _ _ _ hn hrange hdraw => draw_clears_vF_of_empty hn hrange hempty hdraw⟩

end Sys2Proof.Machine
end

section
/-! Faults and the end of an iteration (spec/60_exceptions.md R162 to R168, spec/44_keyboard_timer.md R176): what one step of a
running engine that is not held answers, which faults a meaning can raise, and the decay of the timers. -/

namespace Sys2Proof.Machine

/-! ### One step, forward -/

theorem State.fetch_eq_some {s : State} (h : s.pc.toNat ≤ 4094) :
    s.fetch = some (s.readMem s.pc.toNat, s.readMem (s.pc.toNat + 1)) := by
  rcases s.fetch_cases with ⟨hgt, -⟩ | ⟨-, hsome⟩
  · omega
  · exact hsome

theorem step_of_op {s u : State} {i : Instr} (hrun : s.run = .running) (hhold : s.hold = none) (hpc : s.pc.toNat ≤ 4094)
    (hdec : decode (s.readMem s.pc.toNat) (s.readMem (s.pc.toNat + 1)) = .op i)
    (hexec : exec i (s.setPc (s.pc + 2)) = .next u) : step s = .next u.endIteration := by
  simp only [step, hrun, hhold, iterate, State.fetch_eq_some hpc, hdec, State.advance_eq, hexec]

theorem step_of_invalid {s : State} {b1 b2 : Byte} (hrun : s.run = .running) (hhold : s.hold = none)
    (hpc : s.pc.toNat ≤ 4094) (hdec : decode (s.readMem s.pc.toNat) (s.readMem (s.pc.toNat + 1)) = .invalid b1 b2) :
    step s = .next s.invalidFault := by
  simp only [step, hrun, hhold, iterate, State.fetch_eq_some hpc, hdec]

theorem step_of_faulted {s : State} {f : Fault} (hrun : s.run = .faulted f) : step s = .fault f := by
  simp only [step, hrun]

theorem run_succ_of_faulted {s : State} {f : Fault} (hrun : s.run = .faulted f) (n : Nat) :
    Host.Core.run core (n + 1) s = .fault f := by
  have hstep : core.step s = .fault f := step_of_faulted hrun
  simp only [Host.Core.run, hstep]

/-- Settles O16: the first of the steps asked for answers the fault value, which ends the run. -/
theorem faultedMachineTakesNoStep : Obligations.FaultedMachineTakesNoStep := by
  intro s f hrun n t hnext
  cases (run_succ_of_faulted hrun n).symm.trans hnext

/-! ### Which faults a step can raise -/

/-- A fault that a meaning raises is one of three kinds, and the fault is all that the meaning does (R160, R166). -/
theorem exec_faulted {i : Instr} {s t : State} {f : Fault} (hrun : s.run = .running) (hexec : exec i s = .next t)
    (hfault : t.run = .faulted f) :
    t = s.setRun (.faulted f) ∧
      ((i = .ret ∧ s.sp.val = 0 ∧ f = .stackUnderflow s.instrAddr) ∨
        ((∃ nnn, i = .call nnn) ∧ s.sp.val = 16 ∧ f = .stackOverflow s.instrAddr) ∨
        f = .memOutOfBounds s.instrAddr) := by
  rcases exec_run hexec with hkept | ⟨x, -, -, -, rfl⟩ | ⟨hret, hsp, rfl⟩ | ⟨hcall, hsp, rfl⟩ | ⟨-, rfl⟩
  · rw [hkept, hrun] at hfault
    cases hfault
  · cases hfault
  · cases hfault
    exact ⟨rfl, .inl ⟨hret, hsp, rfl⟩⟩
  · cases hfault
    exact ⟨rfl, .inr (.inl ⟨hcall, hsp, rfl⟩)⟩
  · cases hfault
    exact ⟨rfl, .inr (.inr rfl)⟩

theorem exec_stackOverflow_iff {i : Instr} {s t : State} (hrun : s.run = .running) (hexec : exec i s = .next t) :
    (∃ a, t.run = .faulted (.stackOverflow a)) ↔ (∃ nnn, i = .call nnn) ∧ s.sp.val = 16 := by
  constructor
  · rintro ⟨a, hfault⟩
    obtain ⟨-, ⟨-, -, hf⟩ | ⟨hcall, hsp, -⟩ | hf⟩ := exec_faulted hrun hexec hfault
    · cases hf
    · exact ⟨hcall, hsp⟩
    · cases hf
  · rintro ⟨⟨nnn, rfl⟩, hsp⟩
    cases (execCall_full nnn s hsp).symm.trans hexec
    exact ⟨_, rfl⟩

theorem exec_stackUnderflow_iff {i : Instr} {s t : State} (hrun : s.run = .running) (hexec : exec i s = .next t) :
    (∃ a, t.run = .faulted (.stackUnderflow a)) ↔ i = .ret ∧ s.sp.val = 0 := by
  constructor
  · rintro ⟨a, hfault⟩
    obtain ⟨-, ⟨hret, hsp, -⟩ | ⟨-, -, hf⟩ | hf⟩ := exec_faulted hrun hexec hfault
    · exact ⟨hret, hsp⟩
    · cases hf
    · cases hf
  · rintro ⟨rfl, hsp⟩
    cases (execRet_empty s hsp).symm.trans hexec
    exact ⟨_, rfl⟩

/-- Settles O20: the fault of a meaning is all it does, so a CALL on a full stack pushes nothing and jumps nowhere. -/
theorem stackOverflowExactlyOnAFullStack : Obligations.StackOverflowExactlyOnAFullStack := by
  intro i s hrun
  obtain ⟨t, hexec⟩ := exec_next i s
  refine ⟨t, hexec, exec_stackOverflow_iff hrun hexec, ?_⟩
  rintro ⟨a, hfault⟩
  obtain ⟨rfl, -⟩ := exec_faulted hrun hexec hfault
  exact ⟨s.setRun_stk _, s.setRun_sp _, s.setRun_pc _⟩

/-- An iteration that execute left faulted does nothing more (R166). -/
theorem State.endIteration_setRun_faulted (s : State) (f : Fault) :
    (s.setRun (.faulted f)).endIteration = s.setRun (.faulted f) := rfl

theorem step_ret_on_empty_stack {s : State} (hrun : s.run = .running) (hhold : s.hold = none) (hpc : s.pc.toNat ≤ 4094)
    (hdec : decode (s.readMem s.pc.toNat) (s.readMem (s.pc.toNat + 1)) = .op .ret) (hsp : s.sp.val = 0) :
    ∃ t a, step s = .next t ∧ t.run = .faulted (.stackUnderflow a) := by
  have hstep := step_of_op hrun hhold hpc hdec (execRet_empty (s.setPc (s.pc + 2)) hsp)
  rw [State.endIteration_setRun_faulted] at hstep
  exact ⟨_, _, hstep, State.setRun_run _ _⟩

/-- The machine whose program is one RET. -/
def retMachine : State := State.reset.writeMem Config.progBase [0x00, 0xEE]

theorem construct_ret : construct [0x00, 0xEE] = .next retMachine := rfl

/-- Settles O21: the faults a meaning can raise, and a step of the machine constructed from the image of one RET. -/
theorem stackUnderflowExactlyOnAnEmptyStack : Obligations.StackUnderflowExactlyOnAnEmptyStack := by
  constructor
  · intro i s hrun
    obtain ⟨t, hexec⟩ := exec_next i s
    exact ⟨t, hexec, exec_stackUnderflow_iff hrun hexec⟩
  · obtain ⟨t, a, hstep, hfault⟩ := step_ret_on_empty_stack (s := retMachine) rfl rfl (by decide) (by decide) rfl
    exact ⟨retMachine, t, a, construct_ret, hstep, hfault⟩

/-- The end of an iteration raises no fault: one it shows is the one execute left. -/
theorem State.run_of_endIteration_faulted {u : State} {f : Fault} (h : u.endIteration.run = .faulted f) :
    u.run = .faulted f := by
  rcases u.endIteration_cases with ⟨-, e⟩ | ⟨-, -, e⟩ | ⟨-, -, -, e⟩ | ⟨-, -, -, e⟩ <;> rw [e] at h
  · exact h
  · exact h
  · cases h
  · exact h

theorem step_invalidOpcode {s t : State} {a : Word} (hrun : s.run = .running) (hhold : s.hold = none)
    (hpc : s.pc.toNat ≤ 4094) (hstep : step s = .next t) (hfault : t.run = .faulted (.invalidOpcode a)) :
    t = s.invalidFault ∧ ∃ b1 b2, decode (s.readMem s.pc.toNat) (s.readMem (s.pc.toNat + 1)) = .invalid b1 b2 := by
  cases hdec : decode (s.readMem s.pc.toNat) (s.readMem (s.pc.toNat + 1)) with
  | invalid b1 b2 =>
    cases (step_of_invalid hrun hhold hpc hdec).symm.trans hstep
    exact ⟨rfl, b1, b2, rfl⟩
  | op i =>
    have hadv : (s.setPc (s.pc + 2)).run = .running := hrun
    obtain ⟨u, hexec⟩ := exec_next i (s.setPc (s.pc + 2))
    cases (step_of_op hrun hhold hpc hdec hexec).symm.trans hstep
    obtain ⟨-, ⟨-, -, hf⟩ | ⟨-, -, hf⟩ | hf⟩ := exec_faulted hadv hexec (State.run_of_endIteration_faulted hfault)
    · cases hf
    · cases hf
    · cases hf

theorem State.invalidFault_readMem (s : State) (a : Nat) : s.invalidFault.readMem a = s.readMem a := rfl

/-- Settles O22: no meaning raises InvalidOpcode, and the fault of an `Invalid` word leaves memory alone. -/
theorem invalidOpcodeExactlyOnInvalidWords : Obligations.InvalidOpcodeExactlyOnInvalidWords := by
  intro s hrun hhold hpc
  refine ⟨⟨?_, ?_⟩, ?_⟩
  · rintro ⟨t, a, hstep, hfault⟩
    exact (step_invalidOpcode hrun hhold hpc hstep hfault).2
  · rintro ⟨b1, b2, hdec⟩
    exact ⟨_, s.pc, step_of_invalid hrun hhold hpc hdec, rfl⟩
  · intro t a hstep hfault
    obtain ⟨rfl, b1, b2, hdec⟩ := step_invalidOpcode hrun hhold hpc hstep hfault
    obtain ⟨rfl, rfl⟩ := decode_invalid_bytes hdec
    exact ⟨s.invalidFault_readMem _, s.invalidFault_readMem _, hdec⟩

/-! ### The decay of the timers -/

theorem decayTimer_toNat (b : Byte) (ticks : Nat) : (decayTimer b ticks).toNat = b.toNat - ticks := by
  have hfits : b.toNat - ticks < 2 ^ 8 := by
    have := b.isLt
    omega
  rw [decayTimer, BitVec.toNat_ofNat, Nat.mod_eq_of_lt hfits]

theorem State.endIteration_timers {u : State} (hrun : u.run = .running) (hhold : u.hold = none) :
    u.endIteration.dt = decayTimer u.dt u.hostInput.ticks ∧ u.endIteration.st = decayTimer u.st u.hostInput.ticks := by
  rcases u.endIteration_cases with ⟨hne, -⟩ | ⟨-, ⟨x, hx⟩, -⟩ | ⟨-, -, -, e⟩ | ⟨-, -, -, e⟩
  · exact absurd hrun hne
  · cases hhold.symm.trans hx
  · rw [e]
    exact ⟨rfl, rfl⟩
  · rw [e]
    exact ⟨rfl, rfl⟩

/-- Settles O13: the meaning takes nothing from the host's record, so both timers decay by the ticks of the step's own record. -/
theorem timersDecaySaturating : Obligations.TimersDecaySaturating := by
  intro s i u hrun hhold hpc hdec hexec hurun huhold
  have hhost : u.hostInput = s.hostInput := (exec_hostInput hexec).trans (s.setPc_hostInput _)
  obtain ⟨hdt, hst⟩ := State.endIteration_timers hurun huhold
  refine ⟨u.endIteration, step_of_op hrun hhold hpc hdec hexec, ?_⟩
  rw [hdt, hst, hhost, decayTimer_toNat, decayTimer_toNat]
  omega

end Sys2Proof.Machine
end

section
/-! The decoder and the encoder against each other (spec/30_encoding.md R61 to R73): the fields of a word built from fields, and
the word put together again from the fields the decoder reads. -/

namespace Sys2Proof

/-! ### The fields of a word built from fields -/

theorem byte_toNat_lt (b : Byte) : b.toNat < 256 := b.isLt

theorem toNat_wordXNN {op nn : Nat} (x : Reg) (hop : op < 16) (hnn : nn < 256) :
    (BitVec.ofNat 16 (wordXNN op x nn)).toNat = op * 4096 + x.val * 256 + nn := by
  rw [BitVec.toNat_ofNat, wordXNN, Nat.mod_eq_of_lt (by omega)]

theorem toNat_wordXYN {op n : Nat} (x y : Reg) (hop : op < 16) (hn : n < 16) :
    (BitVec.ofNat 16 (wordXYN op x y n)).toNat = op * 4096 + x.val * 256 + y.val * 16 + n := by
  rw [BitVec.toNat_ofNat, wordXYN, Nat.mod_eq_of_lt (by omega)]

theorem toNat_wordNNN {op nnn : Nat} (hop : op < 16) (hnnn : nnn < 4096) :
    (BitVec.ofNat 16 (wordNNN op nnn)).toNat = op * 4096 + nnn := by
  rw [BitVec.toNat_ofNat, wordNNN, Nat.mod_eq_of_lt (by omega)]

theorem familyOf_wordXNN {op nn : Nat} (x : Reg) (hop : op < 16) (hnn : nn < 256) :
    familyOf (highByte (BitVec.ofNat 16 (wordXNN op x nn))) = op := by
  rw [familyOf_highByte, toNat_wordXNN x hop hnn]
  omega

theorem fieldX_wordXNN {op nn : Nat} (x : Reg) (hop : op < 16) (hnn : nn < 256) :
    fieldX (highByte (BitVec.ofNat 16 (wordXNN op x nn))) = x := by
  rw [Fin.ext_iff, fieldX_val, toNat_wordXNN x hop hnn]
  omega

theorem lowByte_wordXNN {op nn : Nat} (x : Reg) (hop : op < 16) (hnn : nn < 256) :
    lowByte (BitVec.ofNat 16 (wordXNN op x nn)) = BitVec.ofNat 8 nn := by
  apply BitVec.eq_of_toNat_eq
  rw [lowByte_toNat, toNat_wordXNN x hop hnn, BitVec.toNat_ofNat]
  omega

theorem familyOf_wordXYN {op n : Nat} (x y : Reg) (hop : op < 16) (hn : n < 16) :
    familyOf (highByte (BitVec.ofNat 16 (wordXYN op x y n))) = op := by
  rw [familyOf_highByte, toNat_wordXYN x y hop hn]
  omega

theorem fieldX_wordXYN {op n : Nat} (x y : Reg) (hop : op < 16) (hn : n < 16) :
    fieldX (highByte (BitVec.ofNat 16 (wordXYN op x y n))) = x := by
  rw [Fin.ext_iff, fieldX_val, toNat_wordXYN x y hop hn]
  omega

theorem fieldY_wordXYN {op n : Nat} (x y : Reg) (hop : op < 16) (hn : n < 16) :
    fieldY (lowByte (BitVec.ofNat 16 (wordXYN op x y n))) = y := by
  rw [Fin.ext_iff, fieldY_val, toNat_wordXYN x y hop hn]
  omega

theorem fieldN_wordXYN {op n : Nat} (x y : Reg) (hop : op < 16) (hn : n < 16) :
    fieldN (lowByte (BitVec.ofNat 16 (wordXYN op x y n))) = n := by
  rw [fieldN_lowByte, toNat_wordXYN x y hop hn]
  omega

theorem familyOf_wordNNN {op nnn : Nat} (hop : op < 16) (hnnn : nnn < 4096) :
    familyOf (highByte (BitVec.ofNat 16 (wordNNN op nnn))) = op := by
  rw [familyOf_highByte, toNat_wordNNN hop hnnn]
  omega

theorem fieldNNN_wordNNN {op nnn : Nat} (hop : op < 16) (hnnn : nnn < 4096) :
    fieldNNN (highByte (BitVec.ofNat 16 (wordNNN op nnn))) (lowByte (BitVec.ofNat 16 (wordNNN op nnn))) = nnn := by
  rw [fieldNNN_bytes, toNat_wordNNN hop hnnn]
  omega

/-- Settles O1, format by format: the family selects the row, the selector the operation, and every operand is read back. -/
theorem decodeOfEncodeIsTheInstruction : Obligations.DecodeOfEncodeIsTheInstruction := by
  intro i hwf
  cases i
  case cls | ret => decide
  case jmp nnn | call nnn | ldidx nnn | jmpoff nnn =>
    have hnnn : nnn < 4096 := of_decide_eq_true hwf
    simp [decodeWord, encode, Instr.wordValue, decode, familyOf_wordNNN, fieldNNN_wordNNN, hnnn]
  case skeqi x nn | sknei x nn | ldimm x nn | addimm x nn | rnd x nn =>
    simp [decodeWord, encode, Instr.wordValue, decode, familyOf_wordXNN, fieldX_wordXNN, lowByte_wordXNN, byte_toNat_lt]
  case skeqr x y | skner x y =>
    simp [decodeWord, encode, Instr.wordValue, decode, familyOf_wordXYN, fieldX_wordXYN, fieldY_wordXYN, fieldN_wordXYN]
  case mov x y | or x y | and x y | xor x y | add x y | sub x y | shr x y | rsub x y | shl x y =>
    simp [decodeWord, encode, Instr.wordValue, decode, decodeFamily8, familyOf_wordXYN, fieldX_wordXYN, fieldY_wordXYN,
      fieldN_wordXYN]
  case draw x y n =>
    have hn : n < 16 := of_decide_eq_true hwf
    simp [decodeWord, encode, Instr.wordValue, decode, familyOf_wordXYN, fieldX_wordXYN, fieldY_wordXYN, fieldN_wordXYN, hn]
  case skkey x | sknkey x =>
    simp [decodeWord, encode, Instr.wordValue, decode, decodeFamilyE, familyOf_wordXNN, fieldX_wordXNN, lowByte_wordXNN]
  case lddt x | stdt x | stst x | addidx x | ldfont x | stbcd x | stregs x | ldregs x | waitkey x =>
    simp [decodeWord, encode, Instr.wordValue, decode, decodeFamilyF, familyOf_wordXNN, fieldX_wordXNN, lowByte_wordXNN]

end Sys2Proof
end

section
/-! From bytes to an instruction and back (spec/30_encoding.md R67, R73): no bit of a decoded word is lost, and which words are
`Invalid`. -/

namespace Sys2Proof

/-! ### The bytes put together again from their fields -/

theorem wordXNN_fields {op nn : Nat} {b1 b2 : Byte} (hfam : familyOf b1 = op) (hnn : b2.toNat = nn) :
    wordXNN op (fieldX b1) nn = b1.toNat * 256 + b2.toNat := by
  simp only [familyOf] at hfam
  simp only [wordXNN, fieldX]
  omega

theorem wordXYN_fields {op n : Nat} {b1 b2 : Byte} (hfam : familyOf b1 = op) (hn : fieldN b2 = n) :
    wordXYN op (fieldX b1) (fieldY b2) n = b1.toNat * 256 + b2.toNat := by
  simp only [familyOf] at hfam
  simp only [fieldN] at hn
  simp only [wordXYN, fieldX, fieldY]
  omega

theorem wordNNN_fields {op : Nat} {b1 : Byte} (b2 : Byte) (hfam : familyOf b1 = op) :
    wordNNN op (fieldNNN b1 b2) = b1.toNat * 256 + b2.toNat := by
  simp only [familyOf] at hfam
  simp only [wordNNN, fieldNNN]
  omega

theorem fieldNNN_lt (b1 b2 : Byte) : fieldNNN b1 b2 < 4096 := by
  have := b2.isLt
  unfold fieldNNN
  omega

theorem fieldN_lt (b2 : Byte) : fieldN b2 < 16 := Nat.mod_lt _ (by decide)

/-! ### What a decoded instruction says of its bytes -/

theorem decodeFamily0_op {b1 b2 : Byte} {i : Instr} (h : decodeFamily0 b1 b2 = .op i) :
    i.wellFormed = true ∧ i.wordValue = b1.toNat * 256 + b2.toNat := by
  unfold decodeFamily0 at h
  split at h
  case isTrue hb =>
    obtain ⟨rfl, rfl⟩ := hb
    cases h
    decide
  case isFalse =>
    split at h
    case isTrue hb =>
      obtain ⟨rfl, rfl⟩ := hb
      cases h
      decide
    case isFalse => cases h

theorem decodeFamily8_op {b1 b2 : Byte} {i : Instr} (hfam : familyOf b1 = 8) (h : decodeFamily8 b1 b2 = .op i) :
    i.wellFormed = true ∧ i.wordValue = b1.toNat * 256 + b2.toNat := by
  unfold decodeFamily8 at h
  dsimp only at h
  split at h
  case h_10 => cases h
  all_goals
    next hn =>
      cases h
      exact ⟨rfl, wordXYN_fields hfam hn⟩

theorem decodeFamilyE_op {b1 b2 : Byte} {i : Instr} (hfam : familyOf b1 = 14) (h : decodeFamilyE b1 b2 = .op i) :
    i.wellFormed = true ∧ i.wordValue = b1.toNat * 256 + b2.toNat := by
  unfold decodeFamilyE at h
  repeat' split at h
  all_goals cases h
  all_goals
    next hb =>
      subst hb
      exact ⟨rfl, wordXNN_fields hfam rfl⟩

theorem decodeFamilyF_op {b1 b2 : Byte} {i : Instr} (hfam : familyOf b1 = 15) (h : decodeFamilyF b1 b2 = .op i) :
    i.wellFormed = true ∧ i.wordValue = b1.toNat * 256 + b2.toNat := by
  unfold decodeFamilyF at h
  dsimp only at h
  repeat' split at h
  all_goals cases h
  all_goals
    next hb =>
      subst hb
      exact ⟨rfl, wordXNN_fields hfam rfl⟩

/-- A decoded instruction is well formed, and its word is the two bytes (R73). -/
theorem decode_op {b1 b2 : Byte} {i : Instr} (h : decode b1 b2 = .op i) :
    i.wellFormed = true ∧ i.wordValue = b1.toNat * 256 + b2.toNat := by
  have hlt := familyOf_lt b1
  unfold decode at h
  split at h
  case h_1 => exact decodeFamily0_op h
  case h_2 hf | h_3 hf | h_11 hf | h_12 hf =>
    cases h
    exact ⟨decide_eq_true (fieldNNN_lt b1 b2), wordNNN_fields b2 hf⟩
  case h_4 hf | h_5 hf | h_7 hf | h_8 hf | h_13 hf =>
    cases h
    exact ⟨rfl, wordXNN_fields hf rfl⟩
  case h_6 hf | h_10 hf =>
    split at h
    case isTrue hn =>
      cases h
      exact ⟨rfl, wordXYN_fields hf hn⟩
    case isFalse => cases h
  case h_9 hf => exact decodeFamily8_op hf h
  case h_14 hf =>
    cases h
    exact ⟨decide_eq_true (fieldN_lt b2), wordXYN_fields hf rfl⟩
  case h_15 hf => exact decodeFamilyE_op hf h
  case h_16 =>
    have hf : familyOf b1 = 15 := by
      simp only [imp_false] at *
      omega
    exact decodeFamilyF_op hf h

/-- Settles O2: the word of a decoded instruction is its two bytes, which are the bytes of `w`. -/
theorem encodeOfDecodeIsTheWord : Obligations.EncodeOfDecodeIsTheWord := by
  intro w i h
  obtain ⟨hwf, hword⟩ := decode_op h
  have hw : i.wordValue = w.toNat := hword.trans (word_of_bytes w)
  refine ⟨hwf, BitVec.eq_of_toNat_eq ?_⟩
  rw [encode_toNat, hw, Nat.mod_eq_of_lt w.isLt]

/-- Settles O3: equal results are two `Invalid`s with the same raw bytes, or one instruction whose word both pairs are. -/
theorem decodeIsInjective : Obligations.DecodeIsInjective := by
  intro b1 b2 c1 c2 h
  cases hb : decode b1 b2 with
  | invalid d1 d2 =>
    obtain ⟨rfl, rfl⟩ := decode_invalid_bytes hb
    exact decode_invalid_bytes (h.symm.trans hb)
  | op i =>
    have hword := (decode_op hb).2.symm.trans (decode_op (h.symm.trans hb)).2
    have := b2.isLt
    have := c2.isLt
    exact ⟨BitVec.eq_of_toNat_eq (by omega), BitVec.eq_of_toNat_eq (by omega)⟩

end Sys2Proof
end

section
/-! What one meaning and one step can do, each said once as an inductive predicate: the cases of every proof about all
instructions (spec/10_state.md R30 to R34). -/

namespace Sys2Proof.Machine

/-! ### The effect of one instruction -/

/-- The instructions whose whole effect is a write of the named register. -/
def WritesReg (i : Instr) (x : Reg) : Prop :=
  (∃ nn, i = .ldimm x nn ∨ i = .addimm x nn) ∨ (∃ y, i = .mov x y ∨ i = .or x y ∨ i = .and x y ∨ i = .xor x y) ∨ i = .lddt x

/-- The five flag writers of the ALU (R116). -/
def WritesFlag (i : Instr) (x y : Reg) : Prop :=
  i = .add x y ∨ i = .sub x y ∨ i = .shr x y ∨ i = .rsub x y ∨ i = .shl x y

/-- The six skips (R109). -/
def IsSkip (i : Instr) : Prop :=
  (∃ x nn, i = .skeqi x nn ∨ i = .sknei x nn) ∨ (∃ x y, i = .skeqr x y ∨ i = .skner x y) ∨ ∃ x, i = .skkey x ∨ i = .sknkey x

/-- Everything the instruction `i` can leave of the state `s`, tied to `exec` by `exec_effect`. -/
inductive Effect : Instr → State → State → Prop
  | reg {i s} (x : Reg) (b : Byte) (hi : WritesReg i x) : Effect i s (s.writeV x b)
  | flag {i s} (x y : Reg) (f r) (hi : WritesFlag i x y) : Effect i s (s.flagThenResult x y f r)
  | load {s} (x : Reg) : Effect (.ldregs x) s (s.loadRegs x)
  | rnd {s} (x : Reg) (nn b : Byte) : Effect (.rnd x nn) s (s.rngStep.writeV x b)
  | idx {i s} (w : Word) (hi : (∃ nnn, i = .ldidx nnn) ∨ ∃ x, i = .addidx x ∨ i = .ldfont x) : Effect i s (s.setIdx w)
  | skip {i s} (c : Bool) (hi : IsSkip i) : Effect i s (s.setPc (if c then s.pc + 2 else s.pc))
  | jmp {s} (nnn : Nat) : Effect (.jmp nnn) s (s.setPc (BitVec.ofNat 16 nnn))
  | jmpoff {s} (nnn : Nat) : Effect (.jmpoff nnn) s (s.setPc (BitVec.ofNat 16 ((s.readV 0).toNat + nnn)))
  | call {s} (nnn : Nat) (h : s.sp.val < 16) : Effect (.call nnn) s ((s.push s.pc h).setPc (BitVec.ofNat 16 nnn))
  | ret {s} (h : 0 < s.sp.val) : Effect .ret s (s.popPc h)
  | store {i s} (x : Reg) (vs : List Byte) (hi : i = .stbcd x ∨ i = .stregs x) (hvs : s.idx.toNat + vs.length ≤ 4096) :
      Effect i s (s.writeMem s.idx.toNat vs)
  | cls {s} : Effect .cls s (s.setFb Frame.blank)
  | draw {s} (x y : Reg) (n : Nat) (f : Frame) (b : Byte) : Effect (.draw x y n) s ((s.setFb f).writeV vF b)
  | stdt {s} (x : Reg) : Effect (.stdt x) s (s.setDt (s.readV x))
  | stst {s} (x : Reg) : Effect (.stst x) s (s.setSt (s.readV x))
  | key {s} (x : Reg) (k : Byte) : Effect (.waitkey x) s ((s.writeV x k).setHold none)
  | quit {s} (x : Reg) (hq : s.hostInput.quit = true) : Effect (.waitkey x) s ((s.setHold none).setRun .halted)
  | hold {s} (x : Reg) (hq : s.hostInput.quit = false) : Effect (.waitkey x) s (s.setHold (some x))
  | fault {i s} (f : Fault) : Effect i s (s.setRun (.faulted f))

theorem bcdDigits_length (b : Byte) : (bcdDigits b).length = 3 := rfl

theorem State.regsUpTo_length (s : State) (x : Reg) : (s.regsUpTo x).length = x.val + 1 := by
  have := x.isLt
  rw [State.regsUpTo, List.length_take, Vector.length_toList]
  omega

/-- A store at `I` either faults or has its range inside memory (R44). -/
theorem Effect.of_store {i : Instr} {s : State} {x : Reg} {len : Nat} {vs : List Byte} (hi : i = .stbcd x ∨ i = .stregs x)
    (hlen : vs.length = len) (hpos : 0 < len) : Effect i s (s.checkRange len (s.writeMem (s.effAddr 0) vs)) := by
  rcases s.checkRange_cases len (s.writeMem (s.effAddr 0) vs) with ⟨-, -, e⟩ | ⟨hin, e⟩ <;> rw [e]
  · exact .fault _
  · exact .store x vs hi (by omega)

/-- A skip as the write of `pc` it is (R32). -/
theorem Effect.of_skip {i : Instr} {s : State} {c : Bool} (hi : IsSkip i) : Effect i s (s.skipIf c) :=
  s.skipIf_eq_setPc c ▸ .skip c hi

theorem exec_effect {i : Instr} {s t : State} (h : exec i s = .next t) : Effect i s t := by
  cases i
  case cls => cases h; exact .cls
  case ret =>
    rcases Nat.eq_zero_or_pos s.sp.val with h0 | h0
    · cases (execRet_empty s h0).symm.trans h
      exact .fault _
    · cases (execRet_pop s h0).symm.trans h
      exact .ret h0
  case call nnn =>
    by_cases h0 : s.sp.val < 16
    · cases (execCall_push nnn s h0).symm.trans h
      exact .call nnn h0
    · cases (execCall_full nnn s (by omega)).symm.trans h
      exact .fault _
  case jmp nnn => cases h; exact .jmp nnn
  case jmpoff nnn => cases h; exact .jmpoff nnn
  case skeqi x nn => cases h; exact .of_skip (.inl ⟨x, nn, .inl rfl⟩)
  case sknei x nn => cases h; exact .of_skip (.inl ⟨x, nn, .inr rfl⟩)
  case skeqr x y => cases h; exact .of_skip (.inr (.inl ⟨x, y, .inl rfl⟩))
  case skner x y => cases h; exact .of_skip (.inr (.inl ⟨x, y, .inr rfl⟩))
  case skkey x => cases h; exact .of_skip (.inr (.inr ⟨x, .inl rfl⟩))
  case sknkey x => cases h; exact .of_skip (.inr (.inr ⟨x, .inr rfl⟩))
  case ldimm x nn | addimm x nn => cases h; exact .reg x _ (by simp [WritesReg])
  case mov x y | or x y | and x y | xor x y => cases h; exact .reg x _ (by simp [WritesReg])
  case lddt x => cases h; exact .reg x _ (by simp [WritesReg])
  case add x y | sub x y | shr x y | rsub x y | shl x y => cases h; exact .flag x y _ _ (by simp [WritesFlag])
  case ldidx nnn => cases h; exact .idx _ (.inl ⟨nnn, rfl⟩)
  case addidx x => cases h; exact .idx _ (.inr ⟨x, .inl rfl⟩)
  case ldfont x => cases h; exact .idx _ (.inr ⟨x, .inr rfl⟩)
  case rnd x nn => cases h; exact .rnd x nn _
  case draw x y n => cases h; exact State.checkRange_of s n _ (.fault _) (.draw x y n _ _)
  case stdt x => cases h; exact .stdt x
  case stst x => cases h; exact .stst x
  case stbcd x => cases h; exact .of_store (.inl rfl) (bcdDigits_length _) (by decide)
  case stregs x => cases h; exact .of_store (.inr rfl) (s.regsUpTo_length x) (Nat.succ_pos _)
  case ldregs x => cases h; exact State.checkRange_of s _ _ (.fault _) (.load x)
  case waitkey x =>
    cases h
    rcases s.waitForKey_cases x with ⟨k, -, e⟩ | ⟨-, hq, e⟩ | ⟨-, hq, e⟩ <;> rw [e]
    · exact .key x _
    · exact .quit x hq
    · exact .hold x hq

/-! ### What the effects say of each part of the state -/

section
variable {i : Instr} {s t : State}

theorem Effect.mem_wf (h : Effect i s t) (hwf : s.mem.wf = true) : t.mem.wf = true := by
  cases h
  case store x vs _ hvs => exact Memory.wf_writeBytes hwf hvs
  all_goals exact hwf

/-- Every way a meaning changes `pc` (R109). -/
theorem Effect.pc_cases (h : Effect i s t) :
    t.pc = s.pc ∨ (t.pc = s.pc + 2 ∧ IsSkip i) ∨ (∃ nnn, (i = .jmp nnn ∨ i = .call nnn) ∧ t.pc = BitVec.ofNat 16 nnn) ∨
      (∃ nnn, i = .jmpoff nnn ∧ t.pc = BitVec.ofNat 16 ((s.readV 0).toNat + nnn)) ∨
      (i = .ret ∧ ∃ j : Fin 16, t.pc = s.stk[j.val]) := by
  cases h
  case skip c hi =>
    cases c
    · exact .inl rfl
    · exact .inr (.inl ⟨rfl, hi⟩)
  case jmp nnn => exact .inr (.inr (.inl ⟨nnn, .inl rfl, rfl⟩))
  case call nnn _ => exact .inr (.inr (.inl ⟨nnn, .inr rfl, rfl⟩))
  case jmpoff nnn => exact .inr (.inr (.inr (.inl ⟨nnn, rfl, rfl⟩)))
  case ret h => exact .inr (.inr (.inr (.inr ⟨rfl, ⟨s.sp.val - 1, by omega⟩, rfl⟩)))
  all_goals exact .inl rfl

/-- A slot keeps its value or takes the `pc` that a CALL pushes (R103). -/
theorem Effect.slot_cases (h : Effect i s t) (j : Fin 16) : t.stk[j.val] = s.stk[j.val] ∨ t.stk[j.val] = s.pc := by
  cases h
  case call nnn h =>
    simp only [State.setPc_stk, State.push_stk, Vector.getElem_set]
    split
    · exact .inr rfl
    · exact .inl rfl
  all_goals exact .inl rfl

/-- The wait is entered by WAITKEY alone, without a quit request and with `RUN` kept (R187). -/
theorem Effect.hold_cases (h : Effect i s t) :
    t.hold = s.hold ∨ t.hold = none ∨
      ∃ x, i = .waitkey x ∧ t.hold = some x ∧ t.run = s.run ∧ s.hostInput.quit = false := by
  cases h
  case key x k => exact .inr (.inl rfl)
  case quit x _ => exact .inr (.inl rfl)
  case hold x hq => exact .inr (.inr ⟨x, rfl, rfl, rfl, hq⟩)
  all_goals exact .inl rfl

end

/-! ### One step -/

/-- Everything a step that answers a next state can be, tied to `step` by `step_iteration` (R23, R30, R187). -/
inductive Iteration (s : State) : State → Prop
  | halted (hrun : s.run = .halted) : Iteration s s
  | held (x : Reg) (hrun : s.run = .running) (hhold : s.hold = some x) : Iteration s (s.waitForKey x).endIteration
  | fetchFault (hrun : s.run = .running) (hhold : s.hold = none) (hpc : 4094 < s.pc.toNat) :
      Iteration s (s.setRun (.faulted (.pcOutOfBounds s.pc)))
  | invalid (b1 b2 : Byte) (hrun : s.run = .running) (hhold : s.hold = none) (hpc : s.pc.toNat ≤ 4094)
      (hdec : decode (s.readMem s.pc.toNat) (s.readMem (s.pc.toNat + 1)) = .invalid b1 b2) :
      Iteration s ((s.setPc (s.pc + 2)).setRun (.faulted (.invalidOpcode s.pc)))
  | ran (i : Instr) (u : State) (hrun : s.run = .running) (hhold : s.hold = none) (hpc : s.pc.toNat ≤ 4094)
      (hdec : decode (s.readMem s.pc.toNat) (s.readMem (s.pc.toNat + 1)) = .op i)
      (hexec : exec i (s.setPc (s.pc + 2)) = .next u) : Iteration s u.endIteration

theorem step_iteration {s t : State} (h : step s = .next t) : Iteration s t := by
  rcases step_cases h with ⟨hrun, rfl⟩ | ⟨hrun, x, hhold, rfl⟩ | ⟨hrun, hhold, hfetch, rfl⟩ |
    ⟨hrun, hhold, b1, b2, hfetch, ⟨c1, c2, hdec⟩, rfl⟩ | ⟨hrun, hhold, b1, b2, i, u, hfetch, hdec, hexec, rfl⟩
  · exact .halted hrun
  · exact .held x hrun hhold
  all_goals rcases s.fetch_cases with ⟨hpc, hf⟩ | ⟨hpc, hf⟩ <;> cases hf.symm.trans hfetch
  · exact .fetchFault hrun hhold hpc
  · exact .invalid c1 c2 hrun hhold hpc hdec
  · exact .ran i u hrun hhold hpc hdec hexec

theorem toNat_add_two_mod (w : Word) : (w + 2).toNat = (w.toNat + 2) % 65536 := BitVec.toNat_add w 2

/-- The advance of a fetch that did not fault does not wrap (R32). -/
theorem toNat_add_two {w : Word} (h : w.toNat ≤ 4094) : (w + 2).toNat = w.toNat + 2 := by
  rw [toNat_add_two_mod, Nat.mod_eq_of_lt (by omega)]

end Sys2Proof.Machine
end

section
/-! What every step keeps: the machine invariant (spec/10_state.md R34), the parity of `pc` and the stack (spec/20_memory.md
R46), and every way a step changes `pc` (spec/40_control_flow.md R109). -/

namespace Sys2Proof.Machine

theorem wellFormed_of_decode {b1 b2 : Byte} {i : Instr} (h : decode b1 b2 = .op i) : i.wellFormed = true := (decode_op h).1

/-- A 12-bit address, alone or with `V0` added, fits the `pc`. -/
theorem toNat_ofNat_address {n : Nat} (h : n ≤ 0x10FE) : (BitVec.ofNat 16 n).toNat = n := by
  rw [BitVec.toNat_ofNat, Nat.mod_eq_of_lt (by omega)]

theorem address_lt_of_jmp_or_call {i : Instr} {nnn : Nat} (hwf : i.wellFormed = true) (hi : i = .jmp nnn ∨ i = .call nnn) :
    nnn < 4096 := by
  rcases hi with rfl | rfl <;> exact of_decide_eq_true hwf

theorem address_lt_of_jmpoff {nnn : Nat} (hwf : (Instr.jmpoff nnn).wellFormed = true) : nnn < 4096 := of_decide_eq_true hwf

/-! ### The invariant -/

/-- What a machine that is not held keeps of the invariant through any change of `RUN`. -/
theorem State.Inv.setRun {s : State} (h : s.Inv) (hhold : s.hold = none) (r : RunStatus) : (s.setRun r).Inv where
  memCanonical := h.memCanonical
  pcBound := h.pcBound
  slotBound := h.slotBound
  holdRuns hsome := by simp [hhold] at hsome

theorem State.Inv.advance {s : State} (h : s.Inv) (hpc : s.pc.toNat ≤ 4094) : (s.setPc (s.pc + 2)).Inv where
  memCanonical := h.memCanonical
  pcBound := by
    rw [State.setPc_pc, toNat_add_two hpc]
    omega
  slotBound := h.slotBound
  holdRuns := h.holdRuns

theorem State.Inv.waitForKey {s : State} (h : s.Inv) (hrun : s.run = .running) (x : Reg) : (s.waitForKey x).Inv :=
  State.waitForKey_of s x
    (fun _ => ⟨h.memCanonical, h.pcBound, h.slotBound, fun _ => hrun⟩)
    ⟨h.memCanonical, h.pcBound, h.slotBound, fun hsome => nomatch hsome⟩
    ⟨h.memCanonical, h.pcBound, h.slotBound, fun _ => hrun⟩

theorem State.Inv.endIteration {u : State} (h : u.Inv) : u.endIteration.Inv := by
  obtain ⟨-, -, hpc, hstk, -, hmem, -, -, hhold⟩ := u.endIteration_same
  refine ⟨hmem ▸ h.memCanonical, hpc ▸ h.pcBound, fun j => ?_, fun hsome => ?_⟩
  · simp only [hstk]
    exact h.slotBound j
  · rw [hhold] at hsome
    rcases u.endIteration_cases with ⟨-, e⟩ | ⟨hrun, -, e⟩ | ⟨-, hnone, -⟩ | ⟨-, hnone, -⟩
    · rw [e]
      exact h.holdRuns hsome
    · rw [e]
      exact hrun
    all_goals simp [hnone] at hsome

/-- Every meaning keeps the invariant, from the advanced state of a well-formed instruction. -/
theorem Effect.inv {i : Instr} {s t : State} (h : Effect i s t) (hs : s.Inv) (hrun : s.run = .running) (hhold : s.hold = none)
    (hpc : s.pc.toNat ≤ 4096) (hwf : i.wellFormed = true) : t.Inv where
  memCanonical := h.mem_wf hs.memCanonical
  pcBound := by
    rcases h.pc_cases with e | ⟨e, -⟩ | ⟨nnn, hi, e⟩ | ⟨nnn, rfl, e⟩ | ⟨-, j, e⟩ <;> rw [e]
    · exact hs.pcBound
    · rw [toNat_add_two_mod]
      omega
    · have hnnn := address_lt_of_jmp_or_call hwf hi
      rw [toNat_ofNat_address (by omega)]
      omega
    · have hnnn := address_lt_of_jmpoff hwf
      have hv := byte_toNat_lt (s.readV 0)
      rw [toNat_ofNat_address (by omega)]
      omega
    · exact Nat.le_trans (hs.slotBound j) (by decide)
  slotBound j := by
    rcases h.slot_cases j with e | e <;> rw [e]
    · exact hs.slotBound j
    · exact hpc
  holdRuns hsome := by
    rcases h.hold_cases with e | e | ⟨-, -, -, e, -⟩
    · simp [e, hhold] at hsome
    · simp [e] at hsome
    · exact e.trans hrun

/-- Settles O14: the invariant through each form of a step; a decoded instruction is well formed, so its targets fit. -/
theorem stepKeepsTheInvariant : Obligations.StepKeepsTheInvariant := by
  intro s t hs hstep
  cases step_iteration hstep with
  | halted => exact hs
  | held x hrun => exact (hs.waitForKey hrun x).endIteration
  | fetchFault _ hhold => exact hs.setRun hhold _
  | invalid b1 b2 _ hhold hpc => exact (hs.advance hpc).setRun hhold _
  | ran i u hrun hhold hpc hdec hexec =>
    have hnext : (s.setPc (s.pc + 2)).pc.toNat ≤ 4096 := by
      rw [State.setPc_pc, toNat_add_two hpc]
      omega
    exact ((exec_effect hexec).inv (hs.advance hpc) hrun hhold hnext (wellFormed_of_decode hdec)).endIteration

/-! ### Parity -/

theorem toNat_add_two_even {w : Word} (h : w.toNat % 2 = 0) : (w + 2).toNat % 2 = 0 := by
  rw [toNat_add_two_mod]
  omega

theorem toNat_ofNat_even {n : Nat} (h : n % 2 = 0) : (BitVec.ofNat 16 n).toNat % 2 = 0 := by
  rw [BitVec.toNat_ofNat]
  omega

theorem EvenPc.of_same {s t : State} (h : EvenPc s) (hpc : t.pc = s.pc) (hstk : t.stk = s.stk) : EvenPc t :=
  ⟨hpc ▸ h.1, fun j => by simpa only [hstk] using h.2 j⟩

theorem EvenPc.waitForKey {s : State} (h : EvenPc s) (x : Reg) : EvenPc (s.waitForKey x) :=
  State.waitForKey_of s x (fun _ => h.of_same rfl rfl) (h.of_same rfl rfl) (h.of_same rfl rfl)

theorem EvenPc.endIteration {u : State} (h : EvenPc u) : EvenPc u.endIteration := by
  obtain ⟨-, -, hpc, hstk, -⟩ := u.endIteration_same
  exact h.of_same hpc hstk

theorem EvenPc.advance {s : State} (h : EvenPc s) : EvenPc (s.setPc (s.pc + 2)) := ⟨toNat_add_two_even h.1, h.2⟩

/-- A meaning moves `pc` by 2, to the named target, or to a slot, and pushes the `pc` it found. -/
theorem Effect.evenPc {i : Instr} {s t : State} (h : Effect i s t) (hs : EvenPc s) (htarget : EvenTarget s i) : EvenPc t := by
  obtain ⟨hpc, hslots⟩ := hs
  constructor
  · rcases h.pc_cases with e | ⟨e, -⟩ | ⟨nnn, rfl | rfl, e⟩ | ⟨nnn, rfl, e⟩ | ⟨-, j, e⟩ <;> rw [e]
    · exact hpc
    · exact toNat_add_two_even hpc
    · exact toNat_ofNat_even htarget
    · exact toNat_ofNat_even htarget
    · exact toNat_ofNat_even htarget
    · exact hslots j
  · intro j
    rcases h.slot_cases j with e | e <;> rw [e]
    · exact hslots j
    · exact hpc

/-- Settles O15: the parity through each form of a step. -/
theorem pcStaysEvenUnderEvenTargets : Obligations.PcStaysEvenUnderEvenTargets := by
  intro s t hs htargets hstep
  cases step_iteration hstep with
  | halted => exact hs
  | held x => exact (hs.waitForKey x).endIteration
  | fetchFault => exact hs.of_same rfl rfl
  | invalid => exact hs.advance.of_same rfl rfl
  | ran i u _ _ _ hdec hexec =>
    have htarget : EvenTarget (s.setPc (s.pc + 2)) i := by
      have := htargets i hdec
      cases i <;> exact this
    exact ((exec_effect hexec).evenPc hs.advance htarget).endIteration

/-! ### The ways `pc` changes -/

/-- Settles O33: the ways a meaning changes `pc`, from an advance and a target that do not wrap. -/
theorem everyWayThePcChanges : Obligations.EveryWayThePcChanges := by
  intro s t i hrun hhold hpc hdec hstep
  obtain ⟨u, hexec⟩ := exec_next i (s.setPc (s.pc + 2))
  cases (step_of_op hrun hhold hpc hdec hexec).symm.trans hstep
  have hwf := wellFormed_of_decode hdec
  have hadv := toNat_add_two hpc
  obtain ⟨-, -, hend, -⟩ := u.endIteration_same
  rw [hend]
  rcases (exec_effect hexec).pc_cases with e | ⟨e, hskip⟩ | ⟨nnn, hi, e⟩ | ⟨nnn, rfl, e⟩ | ⟨rfl, j, e⟩ <;> rw [e]
  · exact .inl hadv
  · refine .inr (.inl ⟨?_, hskip⟩)
    rw [State.setPc_pc, toNat_add_two_mod, hadv, Nat.mod_eq_of_lt (by omega)]
  · have hnnn := address_lt_of_jmp_or_call hwf hi
    exact .inr (.inr (.inl ⟨nnn, hi, toNat_ofNat_address (by omega)⟩))
  · have hnnn := address_lt_of_jmpoff hwf
    have hv := byte_toNat_lt (s.readV 0)
    rw [State.setPc_readV]
    exact .inr (.inr (.inr (.inl ⟨nnn, rfl, toNat_ofNat_address (by omega)⟩)))
  · exact .inr (.inr (.inr (.inr ⟨rfl, j, rfl⟩)))

end Sys2Proof.Machine
end

section
/-! Frames: which parts of the state each update keeps, one rule per update, and how frames compose. -/

namespace Sys2Proof.Machine

section
variable {ps qs : List Part} {s t u : State}

theorem KeepsAllBut.symm (h : KeepsAllBut ps s t) : KeepsAllBut ps t s := by
  intro p hp
  have := h p hp
  cases p <;> simp_all [Part.same]

theorem KeepsAllBut.trans (h1 : KeepsAllBut ps s t) (h2 : KeepsAllBut qs t u) : KeepsAllBut (ps ++ qs) s u := by
  intro p hp
  have h1 := h1 p fun h => hp (List.mem_append_left _ h)
  have h2 := h2 p fun h => hp (List.mem_append_right _ h)
  cases p <;> simp_all [Part.same]

theorem KeepsAllBut.mono (h : KeepsAllBut ps s t) (hsub : ps ⊆ qs) : KeepsAllBut qs s t :=
  fun p hp => h p fun hmem => hp (hsub hmem)

/-- A frame as the list of the parts it must show unchanged. -/
theorem keepsAllBut_iff : KeepsAllBut ps s t ↔
    ∀ p ∈ [Part.regs, .idx, .pc, .stack, .dt, .st, .mem, .fb, .keys, .rng, .run, .hold, .host], p ∉ ps → p.same s t := by
  refine ⟨fun h p _ => h p, fun h p => h p ?_⟩
  cases p <;> decide

end

section
variable (s : State)

theorem keepsAllBut_refl : KeepsAllBut [] s s := by simp [keepsAllBut_iff, Part.same]

theorem keepsAllBut_writeV (x : Reg) (b : Byte) : KeepsAllBut [.regs] s (s.writeV x b) := by
  simp [keepsAllBut_iff, Part.same]

theorem keepsAllBut_flagThenResult (x y : Reg) (f : Byte → Byte → Bool) (r : Byte → Byte → Byte) :
    KeepsAllBut [.regs] s (s.flagThenResult x y f r) :=
  ((keepsAllBut_writeV s _ _).trans (keepsAllBut_writeV _ _ _)).mono (by simp)

theorem keepsAllBut_setRegs (f : Reg → Byte) : KeepsAllBut [.regs] s (s.setRegs f) := by
  simp [keepsAllBut_iff, Part.same]

theorem keepsAllBut_setIdx (w : Word) : KeepsAllBut [.idx] s (s.setIdx w) := by simp [keepsAllBut_iff, Part.same]

theorem keepsAllBut_setPc (w : Word) : KeepsAllBut [.pc] s (s.setPc w) := by simp [keepsAllBut_iff, Part.same]

theorem keepsAllBut_setDt (b : Byte) : KeepsAllBut [.dt] s (s.setDt b) := by simp [keepsAllBut_iff, Part.same]

theorem keepsAllBut_setSt (b : Byte) : KeepsAllBut [.st] s (s.setSt b) := by simp [keepsAllBut_iff, Part.same]

theorem keepsAllBut_setFb (f : Frame) : KeepsAllBut [.fb] s (s.setFb f) := by simp [keepsAllBut_iff, Part.same]

theorem keepsAllBut_setRun (r : RunStatus) : KeepsAllBut [.run] s (s.setRun r) := by simp [keepsAllBut_iff, Part.same]

theorem keepsAllBut_setHold (h : Option Reg) : KeepsAllBut [.hold] s (s.setHold h) := by simp [keepsAllBut_iff, Part.same]

theorem keepsAllBut_writeMem (a : Nat) (vs : List Byte) : KeepsAllBut [.mem] s (s.writeMem a vs) := by
  simp [keepsAllBut_iff, Part.same]

theorem keepsAllBut_push (w : Word) (h : s.sp.val < 16) : KeepsAllBut [.stack] s (s.push w h) := by
  simp [keepsAllBut_iff, Part.same]

theorem keepsAllBut_popPc (h : 0 < s.sp.val) : KeepsAllBut [.pc, .stack] s (s.popPc h) := by
  simp [keepsAllBut_iff, Part.same]

theorem keepsAllBut_rngStep : KeepsAllBut [.rng] s s.rngStep := by simp [keepsAllBut_iff, Part.same]

theorem keepsAllBut_poll : KeepsAllBut [.keys] s s.poll := by simp [keepsAllBut_iff, Part.same]

theorem keepsAllBut_decay : KeepsAllBut [.dt, .st] s s.decay := by simp [keepsAllBut_iff, Part.same]

theorem keepsAllBut_consumeInput : KeepsAllBut [.host] s s.consumeInput := by simp [keepsAllBut_iff, Part.same]

/-- The end of the iteration reaches the timers, `KEYS`, `RUN` and the host's records alone (R33, R172). -/
theorem keepsAllBut_endIteration : KeepsAllBut [.keys, .run, .dt, .st, .host] s s.endIteration := by
  have hpoll := (keepsAllBut_poll s).trans (keepsAllBut_decay s.poll)
  rcases s.endIteration_cases with ⟨-, e⟩ | ⟨-, -, e⟩ | ⟨-, -, -, e⟩ | ⟨-, -, -, e⟩ <;> rw [e]
  · exact (keepsAllBut_refl s).mono (by simp)
  · exact (keepsAllBut_consumeInput s).mono (by simp)
  · exact ((hpoll.trans (keepsAllBut_setRun _ _)).trans (keepsAllBut_consumeInput _)).mono (by simp)
  · exact (hpoll.trans (keepsAllBut_consumeInput _)).mono (by simp)

/-! ### The register file -/

theorem regsKeptBut_writeV (x : Reg) (b : Byte) : RegsKeptBut [x] s (s.writeV x b) :=
  fun r hr => s.readV_writeV_of_ne x r b (List.ne_of_not_mem_cons hr)

theorem regsKeptBut_flagThenResult (x y : Reg) (f : Byte → Byte → Bool) (r : Byte → Byte → Byte) :
    RegsKeptBut [x, 15] s (s.flagThenResult x y f r) := by
  intro q hq
  obtain ⟨hx, h15⟩ : q ≠ x ∧ q ≠ 15 := by simpa using hq
  simp [State.readV_flagThenResult, hx, h15]

end

end Sys2Proof.Machine
end

section
/-! Reset and the iteration (spec/10_state.md R30 to R35, spec/70_reset_and_hazards.md R190, R191). -/

namespace Sys2Proof.Machine

/-! ### Reset -/

theorem font_length : font.length = 80 := by decide

/-- Above the font every byte is 0 at reset (R35). -/
theorem initialByte_above {a : Nat} (h : 80 ≤ a) : initialByte a = 0 := by
  have hout : font[a]? = none := List.getElem?_eq_none (by rwa [font_length])
  rw [initialByte, List.getD_eq_getElem?_getD, hout, Option.getD_none]

theorem reset_readMem (a : Nat) : State.reset.readMem a = initialByte a := rfl

theorem reset_readV (r : Reg) : State.reset.readV r = 0 := by simp [State.readV, State.reset]

theorem reset_stk (j : Fin 16) : State.reset.stk[j.val] = 0 := by simp [State.reset]

/-- Settles O7, field by field. -/
theorem resetStateIsAsTabled : Obligations.ResetStateIsAsTabled :=
  ⟨reset_readV, rfl, rfl, rfl, reset_stk, rfl, rfl, fun a _ => reset_readMem a, fun _ ha _ => initialByte_above ha,
    Frame.cell_blank, rfl, rfl⟩

/-- Settles O9. -/
theorem invariantHoldsAtReset : Obligations.InvariantHoldsAtReset where
  memCanonical := Memory.wf_nil
  pcBound := by decide
  slotBound j := by
    rw [reset_stk]
    decide
  holdRuns h := nomatch h

theorem construct_fits {image : List Byte} (h : image.length ≤ 3584) :
    construct image = .next (State.reset.writeMem 0x200 image) := if_neg (Nat.not_lt.2 h)

theorem construct_too_large {image : List Byte} (h : 3584 < image.length) :
    construct image = .refused (.imageTooLarge image.length) := if_pos h

/-- A store inside memory keeps the invariant. -/
theorem State.Inv.writeMem {s : State} (h : s.Inv) {a : Nat} {vs : List Byte} (hfits : a + vs.length ≤ 4096) :
    (s.writeMem a vs).Inv where
  memCanonical := Memory.wf_writeBytes h.memCanonical hfits
  pcBound := h.pcBound
  slotBound := h.slotBound
  holdRuns := h.holdRuns

/-- A stored byte reads back (R45). -/
theorem State.readMem_writeMem_inside (s : State) (a : Nat) (vs : List Byte) {m : Nat} (hm : m < vs.length) :
    (s.writeMem a vs).readMem (a + m) = vs[m] := by
  rw [State.readMem_writeMem, dif_pos ⟨by omega, by omega⟩]
  simp

/-- Settles O8: the image is one store on the reset state, whose range ends at or below 4095 or is refused. -/
theorem imageIsLoadedVerbatimOrRefused : Obligations.ImageIsLoadedVerbatimOrRefused := by
  refine fun image => ⟨fun hlen => ⟨_, construct_fits hlen, fun m hm => ?_, fun a ha => ?_, fun a ha hout => ?_,
    keepsAllBut_writeMem _ _ _, State.Inv.writeMem invariantHoldsAtReset (by omega)⟩, construct_too_large⟩
  · rw [State.readMem_writeMem_inside _ _ _ hm, List.getD_eq_getElem?_getD, List.getElem?_eq_getElem hm, Option.getD_some]
  · rw [State.readMem_writeMem_outside _ _ _ _ (.inl (by omega))]
    rfl
  · rw [State.readMem_writeMem_outside _ _ _ _ hout, reset_readMem, initialByte_above ha]

/-! ### The iteration -/

/-- Settles O10: the meaning answers a next state, so the step is its iteration's end. -/
theorem stepRunsTheDecodedInstruction : Obligations.StepRunsTheDecodedInstruction := by
  intro s i hrun hhold hpc hdec
  obtain ⟨u, hexec⟩ := exec_next i (s.setPc (s.pc + 2))
  rw [hexec]
  exact step_of_op hrun hhold hpc hdec hexec

/-- The address a placed word goes to. -/
def placeAddr (s : State) : Nat := if s.pc.toNat > 4094 then Config.progBase else s.pc.toNat

theorem placeAddr_le (s : State) : placeAddr s ≤ 4094 := by
  unfold placeAddr
  split
  · decide
  · omega

theorem placeWord_eq (s : State) (w : Word) : placeWord s w =
    (((s.setPc (BitVec.ofNat 16 (placeAddr s))).setRun .running).setHold none).writeMem (placeAddr s)
      [highByte w, lowByte w] := rfl

theorem placeWord_pc (s : State) (w : Word) : (placeWord s w).pc.toNat = placeAddr s := by
  rw [placeWord_eq]
  exact toNat_ofNat_address (Nat.le_trans (placeAddr_le s) (by decide))

theorem placeWord_readMem {s : State} {w : Word} {m : Nat} (hm : m < 2) :
    (placeWord s w).readMem (placeAddr s + m) = [highByte w, lowByte w][m] := by
  rw [placeWord_eq]
  exact State.readMem_writeMem_inside _ _ [highByte w, lowByte w] hm

theorem placeWord_fetch (s : State) (w : Word) : (placeWord s w).fetch = some (highByte w, lowByte w) := by
  have hpc := placeWord_pc s w
  have hle := placeAddr_le s
  rw [State.fetch_eq_some (by omega), hpc]
  exact congrArg some (Prod.ext (placeWord_readMem (m := 0) (by decide)) (placeWord_readMem (m := 1) (by decide)))

theorem decodeTableWord_eq_some {nbits w : Nat} {i : Instr} (h : decodeTableWord nbits w = some i) :
    decodeWord (BitVec.ofNat 16 (w % 2 ^ nbits)) = .op i := by
  unfold decodeTableWord at h
  split at h <;> cases h
  assumption

/-- Settles O11: the two bytes of the placed word are what the fetch reads. -/
theorem placedWordIsFetched : Obligations.PlacedWordIsFetched :=
  fun s _ _ h => ⟨_, _, placeWord_fetch s _, decodeTableWord_eq_some h, rfl, rfl⟩

/-- The end of a fault-free iteration: poll, decay, quit test, one record used up (R33, R172). -/
theorem State.endIteration_of_running {u : State} (hrun : u.run = .running) (hhold : u.hold = none) :
    u.endIteration = (u.poll.decay.setRun (if u.hostInput.quit = true then .halted else .running)).consumeInput := by
  simp only [State.endIteration, State.quitTest, hrun, hhold, State.present_eq, State.decay_hostInput, State.poll_hostInput,
    State.decay_run, State.poll_run]

/-- Settles O12: from the phases of a fault-free end and the frame of any end. -/
theorem endOfIterationPollsAndTestsQuit : Obligations.EndOfIterationPollsAndTestsQuit := by
  intro u hrun hhold
  have hframe := keepsAllBut_endIteration u
  rw [State.endIteration_of_running hrun hhold] at hframe ⊢
  exact ⟨rfl, rfl, rfl, rfl, hframe⟩

end Sys2Proof.Machine
end

section
/-! How a run stops (spec/60_exceptions.md R160 to R172): the quit request, the faults of the fetch, the decoder and the meanings,
and what each leaves unchanged. -/

namespace Sys2Proof.Machine

/-! ### Stopped machines -/

theorem step_of_halted {s : State} (hrun : s.run = .halted) : step s = .next s := by
  simp only [step, hrun]

theorem run_of_halted {s : State} (hrun : s.run = .halted) (n : Nat) : Host.Core.run core n s = .next s := by
  induction n with
  | zero => rfl
  | succ n ih =>
    have hstep : core.step s = .next s := step_of_halted hrun
    simp only [Host.Core.run, hstep, ih]

/-- Settles O17: by induction on the steps of a halted machine, and by the first step of a faulted one. -/
theorem stoppedMachineStaysStopped : Obligations.StoppedMachineStaysStopped :=
  ⟨fun _ hrun n => run_of_halted hrun n, fun _ _ hrun n => run_succ_of_faulted hrun n⟩

/-! ### The quit request -/

theorem exec_waitkey (x : Reg) (s : State) : exec (.waitkey x) s = .next (s.waitForKey x) := rfl

theorem quit_of_exec_halted {i : Instr} {s t : State} (hrun : s.run = .running) (hexec : exec i s = .next t)
    (hhalted : t.run = .halted) : s.hostInput.quit = true := by
  rcases exec_run hexec with hkept | ⟨-, -, -, hquit, -⟩ | ⟨-, -, rfl⟩ | ⟨-, -, rfl⟩ | ⟨-, rfl⟩
  · cases hrun.symm.trans (hkept.symm.trans hhalted)
  · exact hquit
  all_goals cases hhalted

theorem exec_hold_of_quit {i : Instr} {s t : State} (hhold : s.hold = none) (hexec : exec i s = .next t)
    (hquit : s.hostInput.quit = true) : t.hold = none := by
  rcases (exec_effect hexec).hold_cases with e | e | ⟨-, -, -, -, hno⟩
  · exact e.trans hhold
  · exact e
  · cases hno.symm.trans hquit

theorem State.waitForKey_hold_of_quit {s : State} (x : Reg) (hquit : s.hostInput.quit = true) :
    (s.waitForKey x).hold = none := by
  rcases s.waitForKey_cases x with ⟨k, -, e⟩ | ⟨-, -, e⟩ | ⟨-, hno, -⟩
  · rw [e, State.setHold_hold]
  · rw [e, State.setRun_hold, State.setHold_hold]
  · cases hno.symm.trans hquit

theorem State.halted_of_endIteration {u : State} (h : u.endIteration.run = .halted) :
    u.run = .halted ∨ u.hostInput.quit = true := by
  rcases u.endIteration_cases with ⟨-, e⟩ | ⟨-, -, e⟩ | ⟨-, -, hquit, -⟩ | ⟨-, -, -, e⟩
  · exact .inl ((congrArg State.run e).symm.trans h)
  · exact .inl ((congrArg State.run e).symm.trans h)
  · exact .inr hquit
  · exact .inl ((congrArg State.run e).symm.trans h)

theorem State.endIteration_of_quit {u : State} (hhold : u.hold = none) (hquit : u.hostInput.quit = true) :
    u.endIteration.run = .halted ∨ ∃ f, u.endIteration.run = .faulted f := by
  rcases u.endIteration_cases with ⟨hne, e⟩ | ⟨-, ⟨x, hx⟩, -⟩ | ⟨-, -, -, e⟩ | ⟨-, -, hno, -⟩
  · rw [e]
    cases hr : u.run with
    | running => exact absurd hr hne
    | halted => exact .inl rfl
    | faulted f => exact .inr ⟨f, rfl⟩
  · cases hhold.symm.trans hx
  · rw [e]
    exact .inl rfl
  · cases hno.symm.trans hquit

/-- An iteration that leaves no hold where the host asks to quit halts only at that request, and then halts or has faulted. -/
theorem quit_of_exec_endIteration {i : Instr} {s u : State} (hrun : s.run = .running) (hexec : exec i s = .next u)
    (hnohold : s.hostInput.quit = true → u.hold = none) :
    (u.endIteration.run = .halted → s.hostInput.quit = true) ∧
      (s.hostInput.quit = true → u.endIteration.run = .halted ∨ ∃ f, u.endIteration.run = .faulted f) := by
  have hhost := exec_hostInput hexec
  refine ⟨fun hhalted => ?_, fun hquit => State.endIteration_of_quit (hnohold hquit) (hhost ▸ hquit)⟩
  rcases State.halted_of_endIteration hhalted with hu | hu
  · exact quit_of_exec_halted hrun hexec hu
  · exact hhost ▸ hu

theorem State.endIteration_of_faulted {u : State} {f : Fault} (h : u.run = .faulted f) : u.endIteration = u := by
  simp only [State.endIteration, h]

/-- Settles O18: a held step is a WAITKEY's, so both kinds of iteration end a meaning; a fault leaves nothing to end. -/
theorem quitHaltsAfterFaultFreeIteration : Obligations.QuitHaltsAfterFaultFreeIteration := by
  constructor
  · intro s t hrun hstep
    cases step_iteration hstep with
    | halted hhalted => cases hrun.symm.trans hhalted
    | held x => exact quit_of_exec_endIteration hrun (exec_waitkey x s) (State.waitForKey_hold_of_quit x)
    | fetchFault => exact ⟨nofun, fun _ => .inr ⟨_, rfl⟩⟩
    | invalid => exact ⟨nofun, fun _ => .inr ⟨_, rfl⟩⟩
    | ran i u _ hhold _ _ hexec =>
      have hadv : (s.setPc (s.pc + 2)).run = .running := hrun
      have hadvHold : (s.setPc (s.pc + 2)).hold = none := hhold
      have hquit := quit_of_exec_endIteration hadv hexec (exec_hold_of_quit hadvHold hexec)
      rwa [State.setPc_hostInput] at hquit
  · intro s i u f hrun hhold hpc hdec hexec hfault
    exact ⟨_, step_of_op hrun hhold hpc hdec hexec, (congrArg State.run (State.endIteration_of_faulted hfault)).trans hfault⟩

/-! ### The fault of the fetch -/

theorem step_of_fetchFault {s : State} (hrun : s.run = .running) (hhold : s.hold = none) (hpc : 4094 < s.pc.toNat) :
    step s = .next (s.setRun (.faulted (.pcOutOfBounds s.pc))) := by
  simp only [step, hrun, hhold, iterate, State.fetch_eq_none hpc]
  rfl

/-- Settles O19: no meaning raises PcOutOfBounds, and an `Invalid` word raises another fault. -/
theorem fetchFaultsExactlyAbove4094 : Obligations.FetchFaultsExactlyAbove4094 := by
  intro s hrun hhold
  have hfaults : 4094 < s.pc.toNat →
      ∃ t, step s = .next t ∧ t.run = .faulted (.pcOutOfBounds s.pc) ∧ KeepsAllBut [.run] s t :=
    fun hpc => ⟨_, step_of_fetchFault hrun hhold hpc, rfl, keepsAllBut_setRun s _⟩
  refine ⟨⟨?_, fun hpc => ?_⟩, hfaults⟩
  · rintro ⟨t, a, hstep, hfault⟩
    cases step_iteration hstep with
    | halted hhalted => cases hrun.symm.trans hhalted
    | held x _ hheld => cases hhold.symm.trans hheld
    | fetchFault _ _ hpc => exact hpc
    | invalid => cases hfault
    | ran i u _ _ _ _ hexec =>
      have hadv : (s.setPc (s.pc + 2)).run = .running := hrun
      obtain ⟨-, ⟨-, -, hf⟩ | ⟨-, -, hf⟩ | hf⟩ := exec_faulted hadv hexec (State.run_of_endIteration_faulted hfault)
      all_goals cases hf
  · obtain ⟨t, hstep, hfault, -⟩ := hfaults hpc
    exact ⟨t, s.pc, hstep, hfault⟩

/-! ### The faults of the meanings -/

/-- The bounds check under the condition `P` of one instruction: the fault exactly where the range passes 4095, and nothing
else of it (R44, R165). -/
theorem checkRange_faults {s body : State} {len : Nat} {P : Prop} (hrun : s.run = .running) (hbody : body.run = s.run)
    (hP : P ↔ 1 ≤ len ∧ s.idx.toNat + len - 1 > 4095) :
    ((∃ f, (s.checkRange len body).run = .faulted f) ↔ P) ∧
      (P → (s.checkRange len body).run = .faulted (.memOutOfBounds (s.pc - 2)) ∧
        KeepsAllBut [.run] s (s.checkRange len body)) := by
  by_cases h : P
  · rw [s.checkRange_outside len body (hP.mp h)]
    exact ⟨iff_of_true ⟨_, rfl⟩ h, fun _ => ⟨rfl, keepsAllBut_setRun s _⟩⟩
  · have hin : len = 0 ∨ s.idx.toNat + len - 1 ≤ 4095 := by
      have := mt hP.mpr h
      omega
    rw [s.checkRange_inside len body hin, hbody, hrun]
    exact ⟨iff_of_false (fun ⟨f, hf⟩ => nomatch hf) h, fun hp => absurd hp h⟩

/-- Settles O23: the four instructions are one bounds check each. -/
theorem memOutOfBoundsExactlyPast4095 : Obligations.MemOutOfBoundsExactlyPast4095 := by
  intro x y n s hrun
  refine ⟨⟨_, rfl, checkRange_faults hrun rfl ?_⟩, ⟨_, rfl, checkRange_faults hrun rfl ?_⟩,
    ⟨_, rfl, checkRange_faults hrun rfl ?_⟩, ⟨_, rfl, checkRange_faults hrun rfl Iff.rfl⟩⟩
  all_goals omega

/-- Settles O24: `RUN` is unchanged, or a WAITKEY quit, or the instruction is one of the six. -/
theorem otherInstructionsNeverFault : Obligations.OtherInstructionsNeverFault := by
  intro i s hrun hcall hret hstbcd hstregs hldregs hdraw
  obtain ⟨t, hexec⟩ := exec_next i s
  refine ⟨t, hexec, fun f hfault => ?_⟩
  rcases exec_run hexec with hkept | ⟨x, -, -, -, rfl⟩ | ⟨rfl, -⟩ | ⟨⟨nnn, rfl⟩, -⟩ | ⟨⟨x, hi⟩, -⟩
  · cases hrun.symm.trans (hkept.symm.trans hfault)
  · cases hfault
  · exact hret rfl
  · exact hcall nnn rfl
  · rcases hi with rfl | rfl | rfl | ⟨y, n, rfl⟩
    · exact hstbcd x rfl
    · exact hstregs x rfl
    · exact hldregs x rfl
    · exact hdraw x y n rfl

theorem State.waitForKey_not_faulted {s : State} (hrun : s.run = .running) (x : Reg) (f : Fault) :
    (s.waitForKey x).run ≠ .faulted f :=
  State.waitForKey_of (P := fun t => t.run ≠ .faulted f) s x (fun _ h => nomatch hrun.symm.trans h) (fun h => nomatch h)
    (fun h => nomatch hrun.symm.trans h)

/-- The address a meaning records is the one its instruction was fetched from (R167). -/
theorem instrAddr_advance (s : State) : (s.setPc (s.pc + 2)).instrAddr = s.pc := BitVec.add_sub_cancel s.pc 2

/-- Settles O25: by the form of the step; the fault of a meaning is all it does. -/
theorem faultIsPreciseAndNamesItsFetch : Obligations.FaultIsPreciseAndNamesItsFetch := by
  intro s t f hrun hstep hfault
  cases step_iteration hstep with
  | halted hhalted => cases hrun.symm.trans hhalted
  | held x => exact absurd (State.run_of_endIteration_faulted hfault) (State.waitForKey_not_faulted hrun x f)
  | fetchFault =>
    cases hfault
    exact ⟨(keepsAllBut_setRun s _).mono (by simp), rfl, .inl rfl⟩
  | invalid =>
    cases hfault
    exact ⟨((keepsAllBut_setPc s _).trans (keepsAllBut_setRun _ _)).mono (by simp), rfl, .inr rfl⟩
  | ran i u _ _ _ _ hexec =>
    have hadv : (s.setPc (s.pc + 2)).run = .running := hrun
    obtain ⟨rfl, hf⟩ := exec_faulted hadv hexec (State.run_of_endIteration_faulted hfault)
    refine ⟨((keepsAllBut_setPc s _).trans (keepsAllBut_setRun _ _)).mono (by simp), ?_,
      .inr rfl⟩
    rcases hf with ⟨-, -, rfl⟩ | ⟨-, -, rfl⟩ | rfl <;> exact instrAddr_advance s

end Sys2Proof.Machine
end

section
/-! Control flow and the registers (spec/40_control_flow.md, spec/41_alu.md): what each instruction writes and its frame. -/

namespace Sys2Proof.Machine

/-! ### Calls, returns, jumps -/

/-- Settles O27: a CALL with a free slot is a push and a write of `pc`. -/
theorem callPushesTheReturnAddress : Obligations.CallPushesTheReturnAddress := by
  intro nnn s hnnn hsp
  refine ⟨_, execCall_push nnn s hsp, toNat_ofNat_address (by omega), rfl, fun j => ?_,
    ((keepsAllBut_push s _ hsp).trans (keepsAllBut_setPc _ _)).mono (by simp)⟩
  simp only [State.setPc_stk, State.push_stk, Vector.getElem_set, eq_comm]

/-- Settles O28: a RET with an entry is a pop. -/
theorem retPopsTheLastAddress : Obligations.RetPopsTheLastAddress := by
  intro s j hsp
  have hpos : 0 < s.sp.val := by omega
  refine ⟨_, execRet_pop s hpos, ?_, ?_, rfl, keepsAllBut_popPc s hpos⟩
  · simp [hsp]
  · simp [hsp]

/-- Settles O29: the pop reads the slot that the push wrote. -/
theorem retResumesAfterTheCall : Obligations.RetResumesAfterTheCall := by
  intro nnn s w hsp
  have hpos : 0 < (((s.push s.pc hsp).setPc (BitVec.ofNat 16 nnn)).setPc w).sp.val := Nat.succ_pos _
  refine ⟨_, _, execCall_push nnn s hsp, execRet_pop _ hpos, ?_, rfl⟩
  simp

/-- Settles O31: the sum of a byte and a 12-bit address fits the `pc`. -/
theorem jmpoffAddsV0WithoutReduction : Obligations.JmpoffAddsV0WithoutReduction := by
  intro nnn s hnnn
  have hv := byte_toNat_lt (s.readV 0)
  exact ⟨_, rfl, toNat_ofNat_address (by omega), keepsAllBut_setPc s _⟩

/-- Settles O32. -/
theorem jmpChangesPcAloneAndClsTheGridAlone : Obligations.JmpChangesPcAloneAndClsTheGridAlone :=
  fun nnn s => ⟨⟨_, exec_jmp nnn s, keepsAllBut_setPc s _⟩, ⟨_, exec_cls s, keepsAllBut_setFb s _⟩⟩

/-! ### Skips -/

/-- A skip whose test says `P` (R32). -/
theorem skipIf_of_iff {s : State} {c : Bool} {P : Prop} [Decidable P] (hc : c = true ↔ P) :
    KeepsAllBut [.pc] s (s.skipIf c) ∧ (s.skipIf c).pc = if P then s.pc + 2 else s.pc := by
  rw [State.skipIf_eq_setPc]
  refine ⟨keepsAllBut_setPc s _, ?_⟩
  simp only [State.setPc_pc, hc]

/-- A skip whose test says the opposite of `P`. -/
theorem skipIf_of_iff_not {s : State} {c : Bool} {P : Prop} [Decidable P] (hc : c = true ↔ ¬P) :
    KeepsAllBut [.pc] s (s.skipIf c) ∧ (s.skipIf c).pc = if P then s.pc else s.pc + 2 := by
  obtain ⟨hframe, hpc⟩ := skipIf_of_iff (s := s) hc
  exact ⟨hframe, hpc.trans (ite_not ..)⟩

theorem beq_iff_toNat_eq {a b : Byte} : (a == b) = true ↔ a.toNat = b.toNat := by
  rw [beq_iff_eq, BitVec.toNat_inj]

theorem bne_iff_toNat_ne {a b : Byte} : (a != b) = true ↔ ¬a.toNat = b.toNat := by
  rw [bne_iff_ne, ne_eq, BitVec.toNat_inj]

/-- Settles O30: the four tests compare two bytes as numbers. -/
theorem compareSkipsAddTwo : Obligations.CompareSkipsAddTwo :=
  fun _ _ _ _ => ⟨⟨_, rfl, skipIf_of_iff beq_iff_toNat_eq⟩, ⟨_, rfl, skipIf_of_iff_not bne_iff_toNat_ne⟩,
    ⟨_, rfl, skipIf_of_iff beq_iff_toNat_eq⟩, ⟨_, rfl, skipIf_of_iff_not bne_iff_toNat_ne⟩⟩

/-! ### Loads, moves and bitwise operations -/

/-- A meaning that writes one register: what is read back, and the frame. -/
theorem writeV_spec (s : State) (x : Reg) (b : Byte) :
    (s.writeV x b).readV x = b ∧ RegsKeptBut [x] s (s.writeV x b) ∧ KeepsAllBut [.regs] s (s.writeV x b) :=
  ⟨s.readV_writeV_same x b, regsKeptBut_writeV s x b, keepsAllBut_writeV s x b⟩

theorem addBytes_toNat (a b : Byte) : (addBytes a b).toNat = (a.toNat + b.toNat) % 256 := BitVec.toNat_ofNat _ _

/-- Settles O34. -/
theorem loadAndAddImmediate : Obligations.LoadAndAddImmediate := by
  intro x nn s
  obtain ⟨hload, hloadFrame⟩ := writeV_spec s x nn
  obtain ⟨hadd, haddFrame⟩ := writeV_spec s x (addBytes (s.readV x) nn)
  exact ⟨⟨_, rfl, congrArg BitVec.toNat hload, hloadFrame⟩,
    ⟨_, rfl, (congrArg BitVec.toNat hadd).trans (addBytes_toNat _ _), haddFrame⟩⟩

/-- Settles O35: the bits of the byte that each instruction writes. -/
theorem moveAndBitwiseOperations : Obligations.MoveAndBitwiseOperations := by
  intro x y s
  obtain ⟨hor, horFrame⟩ := writeV_spec s x (s.readV x ||| s.readV y)
  obtain ⟨hand, handFrame⟩ := writeV_spec s x (s.readV x &&& s.readV y)
  obtain ⟨hxor, hxorFrame⟩ := writeV_spec s x (s.readV x ^^^ s.readV y)
  exact ⟨⟨_, rfl, writeV_spec s x (s.readV y)⟩,
    ⟨_, rfl, fun k => by rw [hor, BitVec.getLsbD_or], horFrame⟩,
    ⟨_, rfl, fun k => by rw [hand, BitVec.getLsbD_and], handFrame⟩,
    ⟨_, rfl, fun k => by rw [hxor, BitVec.getLsbD_xor], hxorFrame⟩⟩

/-- Settles O39: one draw of the generator, then one register write. -/
theorem rndMasksTheNextGeneratorByte : Obligations.RndMasksTheNextGeneratorByte := by
  intro x nn s
  obtain ⟨hread, hregs, hframe⟩ := writeV_spec s.rngStep x (s.rngByte &&& nn)
  exact ⟨_, rfl, fun k => by rw [hread, BitVec.getLsbD_and, State.rngByte], rfl, hregs,
    ((keepsAllBut_rngStep s).trans hframe).mono (by simp)⟩

/-! ### The flag writers -/

section
variable (s : State) (x y : Reg) (f : Byte → Byte → Bool) (r : Byte → Byte → Byte)

/-- The result of a flag writer, an operand that is `VF` read as the flag (R116). -/
theorem readV_flagThenResult_dest : (s.flagThenResult x y f r).readV x =
    r (if x = 15 then flagByte (f (s.readV x) (s.readV y)) else s.readV x)
      (if y = 15 then flagByte (f (s.readV x) (s.readV y)) else s.readV y) := by
  simp [State.readV_flagThenResult]

/-- The flag of a flag writer whose destination is not `VF`. -/
theorem readV_flagThenResult_flag (hx : x ≠ 15) :
    (s.flagThenResult x y f r).readV 15 = flagByte (f (s.readV x) (s.readV y)) := by
  simp [State.readV_flagThenResult, hx.symm]

end

theorem flagByte_toNat (c : Bool) : (flagByte c).toNat = if c then 1 else 0 := by cases c <;> rfl

theorem carryFlag_toNat (a b : Byte) :
    (flagByte (carryFlag a b)).toNat = if a.toNat + b.toNat > 255 then 1 else 0 := by
  simp [flagByte_toNat, carryFlag]

theorem noBorrowFlag_toInt (a b : Byte) :
    ((flagByte (noBorrowFlag a b)).toNat : Int) = if a.toNat < b.toNat then 0 else 1 := by
  by_cases h : a.toNat < b.toNat <;> simp [flagByte_toNat, noBorrowFlag, h]

theorem ite_toInt (c : Prop) [Decidable c] (a b : Byte) :
    ((if c then a else b).toNat : Int) = if c then (a.toNat : Int) else b.toNat :=
  apply_ite (fun d : Byte => (d.toNat : Int)) c a b

theorem lowBitFlag_toNat (a : Byte) : (flagByte (lowBitFlag a)).toNat = a.toNat % 2 := by
  rcases Nat.mod_two_eq_zero_or_one a.toNat with h | h <;> simp [flagByte_toNat, lowBitFlag, h]

theorem highBitFlag_toNat (a : Byte) : (flagByte (highBitFlag a)).toNat = a.toNat / 128 := by
  have := byte_toNat_lt a
  have h : a.toNat / 128 = 0 ∨ a.toNat / 128 = 1 := by omega
  rcases h with h | h <;> simp [flagByte_toNat, highBitFlag, h]

theorem subBytes_toNat (a b : Byte) : ((subBytes a b).toNat : Int) = ((a.toNat : Int) - b.toNat) % 256 := by
  have := byte_toNat_lt a
  have := byte_toNat_lt b
  rw [subBytes, BitVec.toNat_ofNat]
  omega

theorem shiftRight_toNat (a : Byte) : (shiftRight a).toNat = a.toNat / 2 := by
  have := byte_toNat_lt a
  rw [shiftRight, BitVec.toNat_ofNat, Nat.mod_eq_of_lt (by omega)]

theorem shiftLeft_toNat (a : Byte) : (shiftLeft a).toNat = a.toNat * 2 % 256 := BitVec.toNat_ofNat _ _

/-- Settles O36: the carry, and the sum of the operands read again. -/
theorem addWritesCarryThenSum : Obligations.AddWritesCarryThenSum := by
  intro x y s c
  refine ⟨_, rfl, ?_, fun hx => ?_, regsKeptBut_flagThenResult s x y _ _, keepsAllBut_flagThenResult s x y _ _⟩
  · rw [readV_flagThenResult_dest, addBytes_toNat, apply_ite BitVec.toNat, apply_ite BitVec.toNat, carryFlag_toNat]
  · rw [readV_flagThenResult_flag s x y _ _ hx, carryFlag_toNat]

/-- Settles O37: SUB and RSUB exchange the operands of the flag and of the difference. -/
theorem subtractionsWriteNoBorrowThenDifference : Obligations.SubtractionsWriteNoBorrowThenDifference := by
  intro x y s
  constructor
  all_goals
    intro nb
    refine ⟨_, rfl, ?_, fun hx => ?_, regsKeptBut_flagThenResult s x y _ _, keepsAllBut_flagThenResult s x y _ _⟩
    · rw [readV_flagThenResult_dest, subBytes_toNat, ite_toInt, ite_toInt, noBorrowFlag_toInt]
    · rw [readV_flagThenResult_flag s x y _ _ hx]
      exact noBorrowFlag_toInt _ _

/-- Settles O38: with `x = 15` the flag itself is shifted. -/
theorem shiftsWriteTheBitShiftedOut : Obligations.ShiftsWriteTheBitShiftedOut := by
  intro x y s
  have hlt := byte_toNat_lt (s.readV x)
  refine ⟨⟨_, rfl, fun hx => ⟨?_, ?_⟩, fun hx => ?_, regsKeptBut_flagThenResult s x y _ _,
      keepsAllBut_flagThenResult s x y _ _⟩,
    ⟨_, rfl, fun hx => ⟨?_, ?_⟩, fun hx => ?_, regsKeptBut_flagThenResult s x y _ _, keepsAllBut_flagThenResult s x y _ _⟩⟩
  · rw [readV_flagThenResult_flag s x y _ _ hx, lowBitFlag_toNat]
  · rw [readV_flagThenResult_dest, if_neg hx, shiftRight_toNat]
  · subst hx
    rw [readV_flagThenResult_dest, if_pos rfl, shiftRight_toNat, lowBitFlag_toNat]
    omega
  · rw [readV_flagThenResult_flag s x y _ _ hx, highBitFlag_toNat]
  · rw [readV_flagThenResult_dest, if_neg hx, shiftLeft_toNat]
  · subst hx
    rw [readV_flagThenResult_dest, if_pos rfl, shiftLeft_toNat, highBitFlag_toNat]
    omega

theorem State.loadRegs_readV (s : State) (x i : Reg) :
    (s.loadRegs x).readV i = if i ≤ x then s.readMem (s.idx.toNat + i.val) else s.readV i :=
  s.readV_setRegs _ i

/-- Settles O40: by the effect of the instruction; a write of another register leaves `VF` alone. -/
theorem flagIsWrittenOnlyByTheSix : Obligations.FlagIsWrittenOnlyByTheSix := by
  intro i s t hexec hne
  have dest : ∀ {u : State} {x : Reg} {b : Byte}, u.readV 15 = s.readV 15 → (u.writeV x b).readV 15 ≠ s.readV 15 → x = 15 := by
    intro u x b hu hw
    exact Classical.byContradiction fun hx => hw ((u.readV_writeV_of_ne x 15 b (Ne.symm hx)).trans hu)
  cases exec_effect hexec
  case reg x b hi =>
    obtain rfl := dest rfl hne
    rcases hi with ⟨nn, h | h⟩ | hy | h
    · exact .inr (.inr (.inl ⟨nn, .inl h⟩))
    · exact .inr (.inr (.inl ⟨nn, .inr (.inl h)⟩))
    · exact .inr (.inr (.inr (.inl hy)))
    · exact .inr (.inr (.inr (.inr (.inr (.inl h)))))
  case flag x y f r hi => exact .inl ⟨x, y, hi⟩
  case load x =>
    have hx : x = 15 := by
      refine Fin.le_antisymm (Fin.le_last x) (Decidable.byContradiction fun hlt => hne ?_)
      rw [State.loadRegs_readV, if_neg hlt]
    exact .inr (.inr (.inr (.inr (.inl (congrArg _ hx)))))
  case rnd x nn b =>
    obtain rfl := dest (u := s.rngStep) rfl hne
    exact .inr (.inr (.inl ⟨nn, .inr (.inr rfl)⟩))
  case draw x y n f b => exact .inr (.inl ⟨x, y, n, rfl⟩)
  case key x k =>
    obtain rfl := dest rfl hne
    exact .inr (.inr (.inr (.inr (.inr (.inr rfl)))))
  all_goals exact absurd rfl hne

end Sys2Proof.Machine
end

section
/-! The index register and memory (spec/42_index_memory.md), and which instructions write which part of the state. -/

namespace Sys2Proof.Machine

/-! ### The index register -/

/-- Settles O41: each new index fits 16 bits, or wraps where the rule says so. -/
theorem indexInstructionsWriteI : Obligations.IndexInstructionsWriteI := by
  intro nnn x s
  have hv := byte_toNat_lt (s.readV x)
  refine ⟨fun hnnn => ⟨_, rfl, toNat_ofNat_address (by omega), keepsAllBut_setIdx s _⟩,
    ⟨_, rfl, BitVec.toNat_ofNat _ _, keepsAllBut_setIdx s _⟩, ⟨_, rfl, toNat_ofNat_address ?_, keepsAllBut_setIdx s _⟩⟩
  rw [Config.glyphBytes]
  omega

/-! ### Stores and loads -/

theorem toNat_ofNat_byte {n : Nat} (h : n < 256) : (BitVec.ofNat 8 n).toNat = n := by
  rw [BitVec.toNat_ofNat, Nat.mod_eq_of_lt (by omega)]

theorem exec_stbcd_inside {s : State} (x : Reg) (h : s.idx.toNat + 2 ≤ 4095) :
    exec (.stbcd x) s = .next (s.writeMem s.idx.toNat (bcdDigits (s.readV x))) :=
  congrArg Host.Outcome.next (s.checkRange_inside 3 _ (by omega))

theorem exec_stregs_inside {s : State} {x : Reg} (h : s.idx.toNat + x.val ≤ 4095) :
    exec (.stregs x) s = .next (s.writeMem s.idx.toNat (s.regsUpTo x)) :=
  congrArg Host.Outcome.next (s.checkRange_inside (x.val + 1) _ (by omega))

theorem exec_ldregs_inside {s : State} {x : Reg} (h : s.idx.toNat + x.val ≤ 4095) :
    exec (.ldregs x) s = .next (s.loadRegs x) :=
  congrArg Host.Outcome.next (s.checkRange_inside (x.val + 1) _ (by omega))

theorem bytesKeptOutside_writeMem (s : State) (a : Nat) (vs : List Byte) : BytesKeptOutside a vs.length s (s.writeMem a vs) :=
  s.readMem_writeMem_outside a vs

/-- Settles O42: three bytes stored at `I`, each the digit of its place. -/
theorem stbcdStoresThreeDigits : Obligations.StbcdStoresThreeDigits := by
  intro x s hin
  have hv := byte_toNat_lt (s.readV x)
  have digit : ∀ {m : Nat} (hm : m < 3), (s.writeMem s.idx.toNat (bcdDigits (s.readV x))).readMem (s.idx.toNat + m) =
      (bcdDigits (s.readV x))[m] := s.readMem_writeMem_inside _ (bcdDigits (s.readV x))
  refine ⟨_, exec_stbcd_inside x hin, ?_, ?_, ?_, bytesKeptOutside_writeMem s _ (bcdDigits _), keepsAllBut_writeMem s _ _⟩
  · exact (congrArg BitVec.toNat (digit (m := 0) (by decide))).trans (toNat_ofNat_byte (by omega))
  · exact (congrArg BitVec.toNat (digit (m := 1) (by decide))).trans (toNat_ofNat_byte (by omega))
  · exact (congrArg BitVec.toNat (digit (m := 2) (by decide))).trans (toNat_ofNat_byte (by omega))

theorem State.regsUpTo_getElem (s : State) {x i : Reg} (hi : i.val < (s.regsUpTo x).length) :
    (s.regsUpTo x)[i.val] = s.readV i := by
  simp [State.regsUpTo, State.readV]

theorem readMem_after_stregs (s : State) {x i : Reg} (hi : i ≤ x) :
    (s.writeMem s.idx.toNat (s.regsUpTo x)).readMem (s.idx.toNat + i.val) = s.readV i := by
  have hlt : i.val < (s.regsUpTo x).length := by
    rw [State.regsUpTo_length]
    exact Nat.lt_succ_of_le hi
  rw [State.readMem_writeMem_inside _ _ _ hlt, State.regsUpTo_getElem]

/-- Settles O43. -/
theorem stregsStoresTheRange : Obligations.StregsStoresTheRange := by
  intro x s hin
  refine ⟨_, exec_stregs_inside hin, fun i hi => readMem_after_stregs s hi, ?_, keepsAllBut_writeMem s _ _⟩
  exact s.regsUpTo_length x ▸ bytesKeptOutside_writeMem s _ _

/-- Settles O44. -/
theorem ldregsLoadsTheRange : Obligations.LdregsLoadsTheRange :=
  fun x s hin => ⟨_, exec_ldregs_inside hin, s.loadRegs_readV x, keepsAllBut_setRegs s _⟩

/-- Settles O45: the store leaves `I`, so the load reads the bytes it wrote. -/
theorem ldregsUndoesStregs : Obligations.LdregsUndoesStregs := by
  intro x s f hin
  have hin' : ((s.writeMem s.idx.toNat (s.regsUpTo x)).setRegs f).idx.toNat + x.val ≤ 4095 := hin
  refine ⟨_, _, exec_stregs_inside hin, exec_ldregs_inside hin', fun i hi => ?_⟩
  rw [State.loadRegs_readV, if_pos hi, State.setRegs_idx, State.writeMem_idx, State.setRegs_readMem,
    readMem_after_stregs s hi]

/-! ### Which instruction writes which part -/

section
variable {i : Instr} {s t : State}

theorem Effect.mem_writer (h : Effect i s t) {a : Nat} (hne : t.readMem a ≠ s.readMem a) : ∃ x, i = .stbcd x ∨ i = .stregs x := by
  cases h
  case store x vs hi _ => exact ⟨x, hi⟩
  all_goals exact absurd rfl hne

theorem Effect.idx_writer (h : Effect i s t) (hne : t.idx ≠ s.idx) :
    (∃ nnn, i = .ldidx nnn) ∨ ∃ x, i = .addidx x ∨ i = .ldfont x := by
  cases h
  case idx w hi => exact hi
  all_goals exact absurd rfl hne

theorem Effect.stack_writer (h : Effect i s t) (hne : t.stk ≠ s.stk ∨ t.sp ≠ s.sp) : (∃ nnn, i = .call nnn) ∨ i = .ret := by
  cases h
  case call nnn _ => exact .inl ⟨nnn, rfl⟩
  case ret => exact .inr rfl
  all_goals exact hne.elim (absurd rfl) (absurd rfl)

theorem Effect.fb_writer (h : Effect i s t) (hne : t.fb ≠ s.fb) : i = .cls ∨ ∃ x y n, i = .draw x y n := by
  cases h
  case cls => exact .inl rfl
  case draw x y n f b => exact .inr ⟨x, y, n, rfl⟩
  all_goals exact absurd rfl hne

theorem Effect.rng_writer (h : Effect i s t) (hne : t.rng ≠ s.rng) : ∃ x nn, i = .rnd x nn := by
  cases h
  case rnd x nn b => exact ⟨x, nn, rfl⟩
  all_goals exact absurd rfl hne

end

/-- Settles O47, part by part. -/
theorem onlyTheNamedInstructionsWrite : Obligations.OnlyTheNamedInstructionsWrite :=
  fun _ _ _ hexec =>
    have heffect := exec_effect hexec
    ⟨heffect.idx_writer, heffect.stack_writer, heffect.fb_writer, heffect.rng_writer⟩

end Sys2Proof.Machine
end

section
/-! Keys, timers and the wait (spec/44_keyboard_timer.md, spec/60_exceptions.md R176 to R187). -/

namespace Sys2Proof.Machine

/-! ### Keys and timer copies -/

/-- A key is down where its bit of the mask is 1; an index above 15 names no key (R151). -/
theorem State.keyDown_iff (s : State) (k : Byte) :
    s.keyDown k = true ↔ k.toNat ≤ 15 ∧ s.keys.toNat / 2 ^ k.toNat % 2 = 1 := by
  simp only [State.keyDown, BitVec.getLsbD, Nat.testBit_eq_decide_div_mod_eq, Bool.and_eq_true, decide_eq_true_eq]

/-- Settles O52. -/
theorem keySkipsReadTheLastPoll : Obligations.KeySkipsReadTheLastPoll := by
  intro x s
  have hdown := s.keyDown_iff (s.readV x)
  have hup : (!s.keyDown (s.readV x)) = true ↔
      ¬((s.readV x).toNat ≤ 15 ∧ s.keys.toNat / 2 ^ (s.readV x).toNat % 2 = 1) := by
    rw [← hdown, Bool.not_eq_true', Bool.not_eq_true]
  exact ⟨⟨_, rfl, skipIf_of_iff hdown⟩, ⟨_, rfl, skipIf_of_iff_not hup⟩⟩

/-- Settles O53. -/
theorem timerInstructionsCopy : Obligations.TimerInstructionsCopy :=
  fun x s => ⟨⟨_, rfl, writeV_spec s x s.dt⟩, ⟨_, rfl, rfl, keepsAllBut_setDt s _⟩, ⟨_, rfl, rfl, keepsAllBut_setSt s _⟩⟩

/-! ### The three answers to a wait -/

section
variable {s : State} (x : Reg)

theorem State.waitForKey_of_key {k : Fin 16} (hkey : s.hostInput.waitkey = some k) :
    s.waitForKey x = (s.writeV x (BitVec.ofNat 8 k.val)).setHold none := by
  simp only [State.waitForKey, hkey]

theorem State.waitForKey_of_quit (hkey : s.hostInput.waitkey = none) (hquit : s.hostInput.quit = true) :
    s.waitForKey x = (s.setHold none).setRun .halted := by
  simp only [State.waitForKey, hkey, hquit, if_true]

theorem State.waitForKey_of_none (hkey : s.hostInput.waitkey = none) (hquit : s.hostInput.quit = false) :
    s.waitForKey x = s.setHold (some x) := by
  simp only [State.waitForKey, hkey, hquit, Bool.false_eq_true, if_false]

end

theorem key_toNat (k : Fin 16) : (BitVec.ofNat 8 k.val).toNat = k.val := toNat_ofNat_byte (by omega)

/-- Settles O56, by the host's answer. -/
theorem waitkeyTakesAKeyOrHoldsOrQuits : Obligations.WaitkeyTakesAKeyOrHoldsOrQuits := by
  intro x s
  refine ⟨fun k hkey => ?_, fun hkey hquit => ?_, fun hkey hquit => ?_⟩ <;>
    refine ⟨s.waitForKey x, exec_waitkey x s, ?_⟩
  · rw [State.waitForKey_of_key x hkey]
    obtain ⟨hread, hregs, hframe⟩ := writeV_spec s x (BitVec.ofNat 8 k.val)
    exact ⟨(congrArg BitVec.toNat hread).trans (key_toNat k), rfl, hregs,
      (hframe.trans (keepsAllBut_setHold _ _)).mono (by simp)⟩
  · rw [State.waitForKey_of_none x hkey hquit]
    exact ⟨rfl, keepsAllBut_setHold s _⟩
  · rw [State.waitForKey_of_quit x hkey hquit]
    exact ⟨rfl, rfl, ((keepsAllBut_setHold s _).trans (keepsAllBut_setRun _ _)).mono (by simp)⟩

theorem step_of_held {s : State} {x : Reg} (hrun : s.run = .running) (hhold : s.hold = some x) :
    step s = .next (s.waitForKey x).endIteration := by
  simp only [step, hrun, hhold]

theorem State.endIteration_of_held {u : State} {x : Reg} (hrun : u.run = .running) (hhold : u.hold = some x) :
    u.endIteration = u.consumeInput := by
  simp only [State.endIteration, hrun, hhold]

theorem State.endIteration_of_stopped {u : State} (hrun : u.run ≠ .running) : u.endIteration = u := by
  rcases u.endIteration_cases with ⟨-, e⟩ | ⟨h, -⟩ | ⟨h, -⟩ | ⟨h, -⟩
  · exact e
  all_goals exact absurd h hrun

/-- Only WAITKEY enters the wait (R187). -/
theorem decode_of_step_held {s t : State} {x : Reg} (hhold : s.hold = none) (hstep : step s = .next t)
    (hheld : t.hold = some x) : decode (s.readMem s.pc.toNat) (s.readMem (s.pc.toNat + 1)) = .op (.waitkey x) := by
  cases step_iteration hstep with
  | halted => cases hhold.symm.trans hheld
  | held y _ hy => cases hhold.symm.trans hy
  | fetchFault => cases hhold.symm.trans hheld
  | invalid => cases hhold.symm.trans hheld
  | ran i u _ _ _ hdec hexec =>
    obtain ⟨-, -, -, -, -, -, -, -, hend⟩ := u.endIteration_same
    have hu : u.hold = some x := hend.symm.trans hheld
    rcases (exec_effect hexec).hold_cases with e | e | ⟨y, rfl, e, -⟩
    · cases (e.trans hhold).symm.trans hu
    · cases e.symm.trans hu
    · cases e.symm.trans hu
      exact hdec

/-- Settles O57: the wait's entry, and by the host's answer the step of a held engine. -/
theorem onlyTheHostLiftsTheWait : Obligations.OnlyTheHostLiftsTheWait := by
  refine ⟨fun s t x => decode_of_step_held, fun s x hrun hhold => ⟨_, step_of_held hrun hhold, ?_, ?_, ?_⟩⟩
  · intro hkey hquit
    have hsame : s.setHold (some x) = s := by rw [← hhold]; rfl
    rw [State.waitForKey_of_none x hkey hquit, hsame, State.endIteration_of_held hrun hhold]
    exact keepsAllBut_consumeInput s
  · intro hkey hquit
    rw [State.waitForKey_of_quit x hkey hquit, State.endIteration_of_stopped (by simp)]
    exact ⟨rfl, rfl, ((keepsAllBut_setHold s none).trans (keepsAllBut_setRun _ _)).mono (by simp)⟩
  · intro k hkey
    obtain ⟨hread, hregs, hframe⟩ := writeV_spec s x (BitVec.ofNat 8 k.val)
    have hend := (hframe.trans (keepsAllBut_setHold _ none)).trans (keepsAllBut_endIteration _)
    rw [State.waitForKey_of_key x hkey]
    rw [State.endIteration_of_running (u := (s.writeV x (BitVec.ofNat 8 k.val)).setHold none) hrun rfl] at hend ⊢
    exact ⟨rfl, (congrArg BitVec.toNat hread).trans (key_toNat k), hregs, decayTimer_toNat _ _, decayTimer_toNat _ _, rfl, rfl,
      hend.mono (by simp)⟩

/-! ### Timers rise only by their store -/

theorem State.endIteration_timers_le (u : State) :
    u.endIteration.dt.toNat ≤ u.dt.toNat ∧ u.endIteration.st.toNat ≤ u.st.toNat := by
  have hdecay (b : Byte) : (decayTimer b u.hostInput.ticks).toNat ≤ b.toNat := by
    rw [decayTimer_toNat]
    exact Nat.sub_le _ _
  rcases u.endIteration_cases with ⟨-, e⟩ | ⟨-, -, e⟩ | ⟨-, -, -, e⟩ | ⟨-, -, -, e⟩ <;> rw [e]
  · exact ⟨Nat.le_refl _, Nat.le_refl _⟩
  · exact ⟨Nat.le_refl _, Nat.le_refl _⟩
  · exact ⟨hdecay u.dt, hdecay u.st⟩
  · exact ⟨hdecay u.dt, hdecay u.st⟩

theorem Effect.dt_writer {i : Instr} {s t : State} (h : Effect i s t) (hne : t.dt ≠ s.dt) : ∃ x, i = .stdt x := by
  cases h
  case stdt x => exact ⟨x, rfl⟩
  all_goals exact absurd rfl hne

theorem Effect.st_writer {i : Instr} {s t : State} (h : Effect i s t) (hne : t.st ≠ s.st) : ∃ x, i = .stst x := by
  cases h
  case stst x => exact ⟨x, rfl⟩
  all_goals exact absurd rfl hne

/-- An iteration in which a timer rises ends the meaning that writes that timer. -/
theorem timer_writer_of_rise {i : Instr} {s u : State} (hexec : exec i s = .next u) :
    (s.dt.toNat < u.endIteration.dt.toNat → ∃ x, i = .stdt x) ∧ (s.st.toNat < u.endIteration.st.toNat → ∃ x, i = .stst x) := by
  obtain ⟨hdt, hst⟩ := u.endIteration_timers_le
  have heffect := exec_effect hexec
  refine ⟨fun hrise => heffect.dt_writer fun e => ?_, fun hrise => heffect.st_writer fun e => ?_⟩
  · rw [e] at hdt
    omega
  · rw [e] at hst
    omega

/-- Settles O54: a held step is a WAITKEY's, and a fault keeps the timers. -/
theorem timersRiseOnlyByTheirStore : Obligations.TimersRiseOnlyByTheirStore := by
  intro s t hstep
  cases step_iteration hstep with
  | halted => exact ⟨fun h => absurd h (Nat.lt_irrefl _), fun h => absurd h (Nat.lt_irrefl _)⟩
  | held x =>
    obtain ⟨hdt, hst⟩ := timer_writer_of_rise (exec_waitkey x s)
    exact ⟨fun h => by simpa using hdt h, fun h => by simpa using hst h⟩
  | fetchFault => exact ⟨fun h => absurd h (Nat.lt_irrefl _), fun h => absurd h (Nat.lt_irrefl _)⟩
  | invalid => exact ⟨fun h => absurd h (Nat.lt_irrefl _), fun h => absurd h (Nat.lt_irrefl _)⟩
  | ran i u _ _ _ hdec hexec =>
    obtain ⟨hdt, hst⟩ := timer_writer_of_rise hexec
    rw [hdec]
    exact ⟨fun h => by simpa using hdt h, fun h => by simpa using hst h⟩

end Sys2Proof.Machine
end

section
/-! Two runs compared: a part of the state that an instruction does not read can be replaced before it or after it
(spec/20_memory.md R48, spec/60_exceptions.md R171, R179). -/

namespace Sys2Proof.Machine

/-- Memory replaced. -/
def State.setMem (s : State) (m : Memory) : State := { s with mem := m }

/-- The host's records replaced. -/
def State.setHost (s : State) (ins : List HostInput) (d : Nat) : State := { s with inputs := ins, draws := d }

/-- `g` replaces parts of the state that no transfer of control, bounds check or fault reads or writes. -/
structure Aside (g : State → State) : Prop where
  pc : ∀ s, (g s).pc = s.pc
  idx : ∀ s, (g s).idx = s.idx
  sp : ∀ s, (g s).sp = s.sp
  setPc : ∀ s w, (g s).setPc w = g (s.setPc w)
  setRun : ∀ s r, (g s).setRun r = g (s.setRun r)
  push : ∀ s w (h : s.sp.val < 16) (h' : (g s).sp.val < 16), (g s).push w h' = g (s.push w h)
  popPc : ∀ s (h : 0 < s.sp.val) (h' : 0 < (g s).sp.val), (g s).popPc h' = g (s.popPc h)

theorem aside_mem (m : Memory) : Aside fun s => s.setMem m :=
  ⟨fun _ => rfl, fun _ => rfl, fun _ => rfl, fun _ _ => rfl, fun _ _ => rfl, fun _ _ _ _ => rfl, fun _ _ _ => rfl⟩

theorem aside_setSt (b : Byte) : Aside fun s => s.setSt b :=
  ⟨fun _ => rfl, fun _ => rfl, fun _ => rfl, fun _ _ => rfl, fun _ _ => rfl, fun _ _ _ _ => rfl, fun _ _ _ => rfl⟩

theorem aside_host (ins : List HostInput) (d : Nat) : Aside fun s => s.setHost ins d :=
  ⟨fun _ => rfl, fun _ => rfl, fun _ => rfl, fun _ _ => rfl, fun _ _ => rfl, fun _ _ _ _ => rfl, fun _ _ _ => rfl⟩

namespace Aside
variable {g : State → State}

theorem instrAddr (hg : Aside g) (s : State) : (g s).instrAddr = s.instrAddr := by
  rw [State.instrAddr, hg.pc, State.instrAddr]

theorem skipIf (hg : Aside g) (s : State) (c : Bool) : (g s).skipIf c = g (s.skipIf c) := by
  cases c
  · rfl
  · rw [State.skipIf_true, State.skipIf_true, hg.pc, hg.setPc]

/-- A checked meaning on the replaced state, where its body commutes with the replacement. -/
theorem next_checkRange (hg : Aside g) {s body body' : State} {len : Nat} (hbody : body' = g body) :
    (Host.Outcome.next ((g s).checkRange len body') : Host.Outcome State Machine.Fault Refusal) =
      .next (g (s.checkRange len body)) := by
  rw [hbody]
  by_cases h : 1 ≤ len ∧ s.idx.toNat + len - 1 > 4095
  · rw [s.checkRange_outside len body h, (g s).checkRange_outside len _ (by rwa [hg.idx]), hg.instrAddr, hg.setRun]
  · have hin : len = 0 ∨ s.idx.toNat + len - 1 ≤ 4095 := by omega
    rw [s.checkRange_inside len body hin, (g s).checkRange_inside len _ (by rwa [hg.idx])]

/-- WAITKEY's transaction on the replaced state, where its three forms commute with the replacement. -/
theorem waitForKey {s : State} {x : Reg} (hhost : (g s).hostInput = s.hostInput)
    (hkey : ∀ k, ((g s).writeV x k).setHold none = g ((s.writeV x k).setHold none))
    (hquit : ((g s).setHold none).setRun .halted = g ((s.setHold none).setRun .halted))
    (hnone : (g s).setHold (some x) = g (s.setHold (some x))) : (g s).waitForKey x = g (s.waitForKey x) := by
  rcases s.waitForKey_cases x with ⟨k, hk, e⟩ | ⟨hk, hq, e⟩ | ⟨hk, hq, e⟩ <;> rw [e]
  · exact (State.waitForKey_of_key x (hhost ▸ hk)).trans (hkey _)
  · exact (State.waitForKey_of_quit x (hhost ▸ hk) (hhost ▸ hq)).trans hquit
  · exact (State.waitForKey_of_none x (hhost ▸ hk) (hhost ▸ hq)).trans hnone

theorem exec_ret (hg : Aside g) {s t : State} (h : exec .ret s = .next t) : exec .ret (g s) = .next (g t) := by
  rcases Nat.eq_zero_or_pos s.sp.val with h0 | h0
  · cases (execRet_empty s h0).symm.trans h
    rw [← hg.setRun, ← hg.instrAddr]
    exact execRet_empty (g s) (by rwa [hg.sp])
  · have h0' : 0 < (g s).sp.val := by rwa [hg.sp]
    cases (execRet_pop s h0).symm.trans h
    rw [← hg.popPc s h0 h0']
    exact execRet_pop (g s) h0'

theorem exec_call (hg : Aside g) {nnn : Nat} {s t : State} (h : exec (.call nnn) s = .next t) :
    exec (.call nnn) (g s) = .next (g t) := by
  by_cases h0 : s.sp.val < 16
  · have h0' : (g s).sp.val < 16 := by rwa [hg.sp]
    cases (execCall_push nnn s h0).symm.trans h
    rw [← hg.setPc, ← hg.push s s.pc h0 h0', ← hg.pc s]
    exact execCall_push nnn (g s) h0'
  · cases (execCall_full nnn s (by omega)).symm.trans h
    rw [← hg.setRun, ← hg.instrAddr]
    exact execCall_full nnn (g s) (by rw [hg.sp]; omega)

end Aside

/-! ### Memory -/

/-- A replaced memory is not seen by the instructions that do not reach memory (R48). -/
theorem exec_setMem {i : Instr} {s t : State} (m : Memory) (hstore : ∀ x, i ≠ .stbcd x ∧ i ≠ .stregs x ∧ i ≠ .ldregs x)
    (hdraw : ∀ x y n, i ≠ .draw x y n) (h : exec i s = .next t) :
    exec i (s.setMem m) = .next (t.setMem m) := by
  have hg := aside_mem m
  cases i
  case ret => exact hg.exec_ret h
  case call => exact hg.exec_call h
  case skeqi | sknei | skeqr | skner | skkey | sknkey => cases h; exact congrArg _ (hg.skipIf s _)
  case stbcd x => exact absurd rfl (hstore x).1
  case stregs x => exact absurd rfl (hstore x).2.1
  case ldregs x => exact absurd rfl (hstore x).2.2
  case draw x y n => exact absurd rfl (hdraw x y n)
  case waitkey x => cases h; exact congrArg _ (Aside.waitForKey (g := fun s => s.setMem m) rfl (fun _ => rfl) rfl rfl)
  all_goals cases h; rfl

/-- Settles O46: the writers of memory, and the replaced memory of the others. -/
theorem onlyFourInstructionsReachMemory : Obligations.OnlyFourInstructionsReachMemory :=
  ⟨fun _ _ _ _ hexec hne => (exec_effect hexec).mem_writer hne,
    fun _ _ _ m hstore hdraw hexec => exec_setMem m hstore hdraw hexec⟩

/-! ### The sound timer -/

theorem waitForKey_setSt (s : State) (x : Reg) (b : Byte) : (s.setSt b).waitForKey x = (s.waitForKey x).setSt b :=
  Aside.waitForKey (g := fun s => s.setSt b) rfl (fun _ => rfl) rfl rfl

/-- No meaning reads `ST`: with another value in it the next state differs in `ST` at most (R179). -/
theorem exec_setSt {i : Instr} {s t : State} (b : Byte) (h : exec i s = .next t) :
    ∃ c, exec i (s.setSt b) = .next (t.setSt c) := by
  have hg := aside_setSt b
  cases i
  case ret => exact ⟨b, hg.exec_ret h⟩
  case call => exact ⟨b, hg.exec_call h⟩
  case skeqi | sknei | skeqr | skner | skkey | sknkey => cases h; exact ⟨b, congrArg _ (hg.skipIf s _)⟩
  case stbcd | stregs | ldregs | draw => cases h; exact ⟨b, hg.next_checkRange rfl⟩
  case waitkey x => cases h; exact ⟨b, congrArg _ (waitForKey_setSt s x b)⟩
  case stst x => cases h; exact ⟨s.readV x, rfl⟩
  all_goals cases h; exact ⟨b, rfl⟩

theorem endIteration_setSt (u : State) (c : Byte) : KeepsAllBut [.st] u.endIteration (u.setSt c).endIteration := by
  by_cases hrun : u.run = .running
  · cases hhold : u.hold with
    | none =>
      rw [State.endIteration_of_running hrun hhold, State.endIteration_of_running (u := u.setSt c) hrun hhold, State.setSt_hostInput]
      simp [keepsAllBut_iff, Part.same]
    | some x =>
      rw [State.endIteration_of_held hrun hhold, State.endIteration_of_held (u := u.setSt c) hrun hhold]
      simp [keepsAllBut_iff, Part.same]
  · rw [State.endIteration_of_stopped hrun, State.endIteration_of_stopped (u := u.setSt c) hrun]
    exact keepsAllBut_setSt u c

/-- Settles O55: each form of a step with `ST` replaced is the same form again. -/
theorem soundTimerIsNeverRead : Obligations.SoundTimerIsNeverRead := by
  intro s t b hstep
  cases step_iteration hstep with
  | halted hrun => exact ⟨_, step_of_halted (s := s.setSt b) hrun, keepsAllBut_setSt s b⟩
  | held x hrun hhold =>
    refine ⟨_, step_of_held (s := s.setSt b) hrun hhold, ?_⟩
    rw [waitForKey_setSt]
    exact endIteration_setSt _ b
  | fetchFault hrun hhold hpc =>
    exact ⟨_, step_of_fetchFault (s := s.setSt b) hrun hhold hpc, keepsAllBut_setSt (s.setRun _) b⟩
  | invalid b1 b2 hrun hhold hpc hdec =>
    exact ⟨_, step_of_invalid (s := s.setSt b) hrun hhold hpc hdec, keepsAllBut_setSt ((s.setPc _).setRun _) b⟩
  | ran i u hrun hhold hpc hdec hexec =>
    obtain ⟨c, hexec'⟩ := exec_setSt b hexec
    exact ⟨_, step_of_op (s := s.setSt b) hrun hhold hpc hdec hexec', endIteration_setSt u c⟩

/-! ### The host's records -/

/-- No meaning but WAITKEY's reads the host's records (R171). -/
theorem exec_setHost {i : Instr} {s t : State} (ins : List HostInput) (d : Nat) (hi : ∀ x, i ≠ .waitkey x)
    (h : exec i s = .next t) :
    exec i (s.setHost ins d) = .next (t.setHost ins d) := by
  have hg := aside_host ins d
  cases i
  case ret => exact hg.exec_ret h
  case call => exact hg.exec_call h
  case skeqi | sknei | skeqr | skner | skkey | sknkey => cases h; exact congrArg _ (hg.skipIf s _)
  case stbcd | stregs | ldregs | draw => cases h; exact hg.next_checkRange rfl
  case waitkey x => exact absurd rfl (hi x)
  all_goals cases h; rfl

theorem keepsAllBut_setHost (s : State) (ins : List HostInput) (d : Nat) :
    KeepsAllBut [.host] s (s.setHost ins d) := by
  simp [keepsAllBut_iff, Part.same, State.setHost, State.readV, State.readMem]

/-- Settles O58: both steps run the same meaning, and the ends of both iterations reach only the parts named. -/
theorem hostReachesTheProgramOnlyThroughWaitkey : Obligations.HostReachesTheProgramOnlyThroughWaitkey := by
  intro s t ins d hrun hhold hnowait hstep
  cases step_iteration hstep with
  | halted hhalted => cases hrun.symm.trans hhalted
  | held x _ hheld => cases hhold.symm.trans hheld
  | fetchFault _ _ hpc =>
    exact ⟨_, step_of_fetchFault (s := s.setHost ins d) hrun hhold hpc,
      (keepsAllBut_setHost (s.setRun _) ins d).mono (by simp)⟩
  | invalid b1 b2 _ _ hpc hdec =>
    exact ⟨_, step_of_invalid (s := s.setHost ins d) hrun hhold hpc hdec,
      (keepsAllBut_setHost ((s.setPc _).setRun _) ins d).mono (by simp)⟩
  | ran i u _ _ hpc hdec hexec =>
    have hexec' := exec_setHost ins d (fun x hx => hnowait x (hx ▸ hdec)) hexec
    refine ⟨_, step_of_op (s := s.setHost ins d) hrun hhold hpc hdec hexec', ?_⟩
    exact (((keepsAllBut_endIteration u).symm.trans (keepsAllBut_setHost u ins d)).trans
      (keepsAllBut_endIteration _)).mono (by simp)

end Sys2Proof.Machine
end

section
/-! Pass 2 of the disassembler (spec/30_encoding.md R82, R86): both namespaces are one collection, read with a different test. -/

namespace Sys2Proof.Machine

/-! ### Noting one target -/

section
variable {ts : List Nat} {t u : Nat}

theorem mem_noteTarget : u ∈ noteTarget ts t ↔ u ∈ ts ∨ u = t := by
  unfold noteTarget
  split
  case isTrue h => exact ⟨.inl, fun hu => hu.elim id fun e => e ▸ h⟩
  case isFalse => simp

theorem nodup_noteTarget (h : ts.Nodup) : (noteTarget ts t).Nodup := by
  unfold noteTarget
  split
  case isTrue => exact h
  case isFalse hnew =>
    refine List.nodup_append.2 ⟨h, List.pairwise_singleton _ t, fun a ha b hb hab => hnew ?_⟩
    rwa [← List.mem_singleton.1 hb, ← hab]

theorem prefix_noteTarget : ts <+: noteTarget ts t := by
  unfold noteTarget
  split
  case isTrue => exact List.prefix_rfl
  case isFalse => exact List.prefix_append ts [t]

end

/-! ### Collecting the targets of a listing -/

/-- The targets that `target?` finds in the entries, noted in order after those in `ts`. -/
def collectTargets (target? : Operation → Option Nat) (ts : List Nat) (es : List (Nat × Operation)) : List Nat :=
  es.foldl (fun ts e => (target? e.2).elim ts (noteTarget ts)) ts

/-- The target of a JMP. -/
def jumpTarget? : Operation → Option Nat
  | .op (.jmp t) => some t
  | _ => none

/-- The target of a CALL. -/
def callTarget? : Operation → Option Nat
  | .op (.call t) => some t
  | _ => none

theorem jumpTarget?_eq_some {o : Operation} {t : Nat} : jumpTarget? o = some t ↔ o = .op (.jmp t) := by
  unfold jumpTarget?
  split
  · simp
  case h_2 hno => exact ⟨nofun, fun h => absurd h (hno t)⟩

theorem callTarget?_eq_some {o : Operation} {t : Nat} : callTarget? o = some t ↔ o = .op (.call t) := by
  unfold callTarget?
  split
  · simp
  case h_2 hno => exact ⟨nofun, fun h => absurd h (hno t)⟩

theorem jumpTargets_eq (es : List (Nat × Operation)) : jumpTargets es = collectTargets jumpTarget? [] es := by
  refine congrArg (fun f => es.foldl f []) ?_
  funext ts ⟨a, o⟩
  cases o with
  | invalid b1 b2 => rfl
  | op i => cases i <;> rfl

theorem callTargets_eq (es : List (Nat × Operation)) : callTargets es = collectTargets callTarget? [] es := by
  refine congrArg (fun f => es.foldl f []) ?_
  funext ts ⟨a, o⟩
  cases o with
  | invalid b1 b2 => rfl
  | op i => cases i <;> rfl

section
variable (target? : Operation → Option Nat) (ts : List Nat) (es fs : List (Nat × Operation))

theorem collectTargets_cons (e : Nat × Operation) :
    collectTargets target? ts (e :: es) = collectTargets target? ((target? e.2).elim ts (noteTarget ts)) es := rfl

theorem collectTargets_append :
    collectTargets target? ts (es ++ fs) = collectTargets target? (collectTargets target? ts es) fs :=
  List.foldl_append

theorem nodup_collectTargets (h : ts.Nodup) : (collectTargets target? ts es).Nodup := by
  induction es generalizing ts with
  | nil => exact h
  | cons e es ih =>
    rw [collectTargets_cons]
    cases target? e.2 with
    | none => exact ih ts h
    | some t => exact ih _ (nodup_noteTarget h)

theorem prefix_collectTargets : ts <+: collectTargets target? ts es := by
  induction es generalizing ts with
  | nil => exact List.prefix_rfl
  | cons e es ih =>
    rw [collectTargets_cons]
    cases target? e.2 with
    | none => exact ih ts
    | some t => exact prefix_noteTarget.trans (ih _)

theorem mem_collectTargets {t : Nat} :
    t ∈ collectTargets target? ts es ↔ t ∈ ts ∨ ∃ e ∈ es, target? e.2 = some t := by
  induction es generalizing ts with
  | nil => simp [collectTargets]
  | cons e es ih =>
    rw [collectTargets_cons, ih]
    simp only [List.mem_cons, exists_eq_or_imp]
    cases target? e.2 with
    | none => simp only [Option.elim_none, reduceCtorEq, false_or]
    | some u => simp only [Option.elim_some, mem_noteTarget, Option.some.injEq, or_assoc, eq_comm (a := t)]

end

/-- An entry of an operation, whatever its address. -/
theorem exists_entry_iff {es : List (Nat × Operation)} {o : Operation} : (∃ e ∈ es, e.2 = o) ↔ ∃ a, (a, o) ∈ es :=
  ⟨fun ⟨e, he, ho⟩ => ⟨e.1, ho ▸ he⟩, fun ⟨a, he⟩ => ⟨(a, o), he, rfl⟩⟩

/-- Settles O60: what a collection holds, for the test of each namespace. -/
theorem labelsAreNumberedByFirstAppearance : Obligations.LabelsAreNumberedByFirstAppearance := by
  intro es fs
  rw [jumpTargets_eq, jumpTargets_eq, callTargets_eq, callTargets_eq, collectTargets_append, collectTargets_append]
  refine ⟨nodup_collectTargets _ _ _ List.nodup_nil, nodup_collectTargets _ _ _ List.nodup_nil, fun t => ?_, fun t => ?_,
    prefix_collectTargets _ _ _, prefix_collectTargets _ _ _⟩
  · simp only [mem_collectTargets, jumpTarget?_eq_some, exists_entry_iff, List.not_mem_nil, false_or]
  · simp only [mem_collectTargets, callTarget?_eq_some, exists_entry_iff, List.not_mem_nil, false_or]

end Sys2Proof.Machine
end

section
/-! DRAW inside memory (spec/43_display.md R142 to R144): the cells it flips, its collision flag, and the same sprite drawn
twice. -/

namespace Sys2Proof.Machine

/-! ### The drawn grid in the words of `SpriteCovers` -/

section
variable {s : State} {n : Nat} (x y : Reg)

/-- A 1 of the sprite at row `r` and column `c`, on the wrapped cell (R142). -/
theorem spriteCovers_iff (row : Fin 32) (col : Fin 64) : SpriteCovers s x y n row.val col.val ↔
    ∃ r c, r < n ∧ c < 8 ∧ spriteBit (s.readMem (s.effAddr r)) c = true ∧ wrapRow (s.readV y).toNat r = row ∧
      wrapCol (s.readV x).toNat c = col := by
  simp only [SpriteCovers, spriteBit_eq, State.effAddr, Fin.ext_iff, wrapRow, wrapCol, and_comm (a := _ % 64 = _)]

theorem State.drawn_cell_ne_iff (hn : n < 16) (row : Fin 32) (col : Fin 64) :
    (s.drawn x y n).1.cell row col ≠ s.fb.cell row col ↔ SpriteCovers s x y n row.val col.val :=
  ((drawSprite_spec _ _ n _ s.fb (by omega)).1 row col).trans (spriteCovers_iff x y row col).symm

theorem State.drawn_hit_iff (hn : n < 16) : (s.drawn x y n).2 = true ↔
    ∃ row col, s.fb.cell row col = true ∧ SpriteCovers s x y n row.val col.val := by
  refine (drawSprite_spec _ _ n _ s.fb (by omega)).2.trans ?_
  simp only [spriteCovers_iff]
  constructor
  · rintro ⟨r, c, hr, hc, hbit, hlit⟩
    exact ⟨_, _, hlit, r, c, hr, hc, hbit, rfl, rfl⟩
  · rintro ⟨_, _, hlit, r, c, hr, hc, hbit, rfl, rfl⟩
    exact ⟨r, c, hr, hc, hbit, hlit⟩

end

/-- What a DRAW inside memory leaves. -/
def State.afterDraw (s : State) (x y : Reg) (n : Nat) : State :=
  (s.setFb (s.drawn x y n).1).writeV vF (flagByte (s.drawn x y n).2)

section
variable (s : State) (x y : Reg) (n : Nat)

theorem exec_draw_inside (h : RangeInside s n) : exec (.draw x y n) s = .next (s.afterDraw x y n) :=
  exec_draw_of_rangeInside x y h

theorem State.afterDraw_fb : (s.afterDraw x y n).fb = (s.drawn x y n).1 := rfl

theorem State.afterDraw_flag : (s.afterDraw x y n).readV 15 = flagByte (s.drawn x y n).2 := State.readV_writeV_same _ vF _

theorem regsKeptBut_afterDraw : RegsKeptBut [15] s (s.afterDraw x y n) := regsKeptBut_writeV (s.setFb _) vF _

theorem keepsAllBut_afterDraw : KeepsAllBut [.fb, .regs] s (s.afterDraw x y n) :=
  ((keepsAllBut_setFb s _).trans (keepsAllBut_writeV _ _ _)).mono (by simp)

end

theorem flagByte_eq_one_iff {c : Bool} : flagByte c = 1 ↔ c = true := by cases c <;> decide

theorem flagByte_eq_zero_iff {c : Bool} : flagByte c = 0 ↔ ¬c = true := by cases c <;> decide

/-- Settles O49. -/
theorem drawFlipsExactlyTheCoveredCells : Obligations.DrawFlipsExactlyTheCoveredCells :=
  fun x y n s hn hrange => ⟨_, exec_draw_inside s x y n hrange, State.drawn_cell_ne_iff x y hn, regsKeptBut_afterDraw s x y n,
    keepsAllBut_afterDraw s x y n⟩

/-- Settles O50. -/
theorem drawReportsTheCollision : Obligations.DrawReportsTheCollision := by
  intro x y n s hn hrange
  refine ⟨_, exec_draw_inside s x y n hrange, fun hhit => ?_, fun hmiss => ?_⟩ <;> rw [State.afterDraw_flag]
  · exact flagByte_eq_one_iff.2 ((State.drawn_hit_iff x y hn).2 hhit)
  · exact flagByte_eq_zero_iff.2 (mt (State.drawn_hit_iff x y hn).1 hmiss)

/-! ### The same sprite drawn twice -/

/-- A grid is its cells. -/
theorem Frame.ext_cell {f g : Frame} (h : ∀ row col, f.cell row col = g.cell row col) : f = g :=
  Vector.ext fun i hi => Vector.ext fun j hj => h ⟨i, hi⟩ ⟨j, hj⟩

/-- The first draw leaves the sprite and, outside `VF`, its coordinates. -/
theorem spriteCovers_afterDraw (s : State) {x y : Reg} (n row col : Nat) (hx : x ≠ 15) (hy : y ≠ 15) :
    SpriteCovers (s.afterDraw x y n) x y n row col ↔ SpriteCovers s x y n row col := by
  have hmem : ∀ a, (s.afterDraw x y n).readMem a = s.readMem a := fun _ => rfl
  have hidx : (s.afterDraw x y n).idx = s.idx := rfl
  rw [SpriteCovers, SpriteCovers, regsKeptBut_afterDraw s x y n x (by simpa using hx),
    regsKeptBut_afterDraw s x y n y (by simpa using hy)]
  simp only [hmem, hidx]

/-- A sprite lies on cells of the grid alone (R142). -/
theorem exists_spriteCovers_iff {s : State} {x y : Reg} {n : Nat} :
    (∃ row col : Nat, SpriteCovers s x y n row col) ↔
      ∃ (row : Fin 32) (col : Fin 64), SpriteCovers s x y n row.val col.val := by
  constructor
  · rintro ⟨_, _, r, c, hr, hc, hbit, rfl, rfl⟩
    exact ⟨wrapRow _ r, wrapCol _ c, r, c, hr, hc, hbit, rfl, rfl⟩
  · rintro ⟨row, col, h⟩
    exact ⟨row.val, col.val, h⟩

/-- Settles O51: the second draw flips the cells that the first one flipped, which on an empty grid are the cells that are 1. -/
theorem drawingTwiceGivesTheGridBack : Obligations.DrawingTwiceGivesTheGridBack := by
  intro x y n s hn hrange hx hy
  have hrange' : RangeInside (s.afterDraw x y n) n := hrange
  have hcovers (row col : Nat) := spriteCovers_afterDraw s n row col hx hy
  refine ⟨_, _, exec_draw_inside s x y n hrange, exec_draw_inside _ x y n hrange', Frame.ext_cell fun row col => ?_,
    fun hempty => ?_⟩
  · have hfirst := s.drawn_cell_ne_iff x y hn row col
    have hsecond := (s.afterDraw x y n).drawn_cell_ne_iff x y hn row col
    have hflips := (hsecond.trans (hcovers row.val col.val)).trans hfirst.symm
    rw [State.afterDraw_fb] at hflips ⊢
    revert hflips
    cases (s.drawn x y n).1.cell row col <;> cases s.fb.cell row col <;> simp
  · have hlit (row col) : (s.drawn x y n).1.cell row col = true ↔ SpriteCovers s x y n row.val col.val := by
      rw [← s.drawn_cell_ne_iff x y hn row col, hempty row col, ne_eq, Bool.not_eq_false]
    rw [State.afterDraw_flag, flagByte_eq_one_iff, State.drawn_hit_iff x y hn, State.afterDraw_fb, exists_spriteCovers_iff]
    simp only [hcovers, hlit, and_self]

end Sys2Proof.Machine
end

section
/-! The `Invalid` words and the opcode map (spec/30_encoding.md R66, R67): the decoder against the table of masks and patterns. -/

namespace Sys2Proof

/-! ### The `Invalid` words of each family -/

section
variable {b1 b2 : Byte}

theorem decodeFamily0_invalid_iff :
    (∃ c1 c2, decodeFamily0 b1 b2 = .invalid c1 c2) ↔ ¬(b1 = 0x00 ∧ (b2 = 0xE0 ∨ b2 = 0xEE)) := by
  unfold decodeFamily0
  repeat' split
  all_goals simp_all

theorem decodeFamily8_invalid_iff :
    (∃ c1 c2, decodeFamily8 b1 b2 = .invalid c1 c2) ↔ fieldN b2 ∈ [8, 9, 10, 11, 12, 13, 15] := by
  have hlt := fieldN_lt b2
  unfold decodeFamily8
  dsimp only
  split
  case h_10 =>
    simp only [imp_false] at *
    exact iff_of_true ⟨b1, b2, rfl⟩ (by simp; omega)
  all_goals
    next hn => exact iff_of_false nofun (by simp [hn])

theorem decodeFamilyE_invalid_iff : (∃ c1 c2, decodeFamilyE b1 b2 = .invalid c1 c2) ↔ b2 ∉ [0x9E, 0xA1] := by
  unfold decodeFamilyE
  repeat' split
  all_goals simp_all

theorem decodeFamilyF_invalid_iff : (∃ c1 c2, decodeFamilyF b1 b2 = .invalid c1 c2) ↔
    b2 ∉ [0x07, 0x0A, 0x15, 0x18, 0x1E, 0x29, 0x33, 0x55, 0x65] := by
  unfold decodeFamilyF
  dsimp only
  repeat' split
  all_goals simp_all

theorem invalid_unless_zero_iff {n : Nat} {i : Instr} :
    (∃ c1 c2, (if n = 0 then Operation.op i else .invalid b1 b2) = .invalid c1 c2) ↔ n ≠ 0 := by
  by_cases hn : n = 0 <;> simp [hn]

/-- The table of R67: a family without a row of its own here has no `Invalid` word. -/
theorem decode_invalid_iff : (∃ c1 c2, decode b1 b2 = .invalid c1 c2) ↔
    (familyOf b1 = 0 ∧ ¬(b1 = 0x00 ∧ (b2 = 0xE0 ∨ b2 = 0xEE))) ∨
    (familyOf b1 = 5 ∧ fieldN b2 ≠ 0) ∨
    (familyOf b1 = 8 ∧ fieldN b2 ∈ [8, 9, 10, 11, 12, 13, 15]) ∨
    (familyOf b1 = 9 ∧ fieldN b2 ≠ 0) ∨
    (familyOf b1 = 14 ∧ b2 ∉ [0x9E, 0xA1]) ∨
    (familyOf b1 = 15 ∧ b2 ∉ [0x07, 0x0A, 0x15, 0x18, 0x1E, 0x29, 0x33, 0x55, 0x65]) := by
  have hlt := familyOf_lt b1
  unfold decode
  split
  case h_1 hf => simp [hf, decodeFamily0_invalid_iff]
  case h_6 hf | h_10 hf => simp [hf, invalid_unless_zero_iff]
  case h_9 hf => simp [hf, decodeFamily8_invalid_iff]
  case h_15 hf => simp [hf, decodeFamilyE_invalid_iff]
  case h_16 =>
    have hf : familyOf b1 = 15 := by
      simp only [imp_false] at *
      omega
    simp [hf, decodeFamilyF_invalid_iff]
  all_goals
    next hf => simp [hf]

end

/-- Settles O4. -/
theorem invalidWordsAreExactlyTheTabled : Obligations.InvalidWordsAreExactlyTheTabled :=
  fun _ _ => ⟨decode_invalid_iff, fun _ _ => decode_invalid_bytes⟩

/-- Settles O6: five words, evaluated. -/
theorem shownWordsDecode : Obligations.ShownWordsDecode := by
  unfold Obligations.ShownWordsDecode
  decide

/-! ### Masks as arithmetic -/

/-- A mask of the top nibble and the low `k` bits keeps the family and the remainder. -/
theorem land_family_low {v : Nat} (k : Nat) (hv : v < 65536) (hk : k ≤ 12) :
    v &&& (15 * 4096 + (2 ^ k - 1)) = v / 4096 * 4096 + v % 2 ^ k := by
  have hle : 2 ^ k ≤ 2 ^ 12 := Nat.pow_le_pow_right (by decide) hk
  have hpos : 0 < 2 ^ k := Nat.two_pow_pos k
  have hhi : (15 * 4096 + (2 ^ k - 1)) / 2 ^ 12 = 2 ^ 4 - 1 := by omega
  have hlo : (15 * 4096 + (2 ^ k - 1)) % 2 ^ 12 = 2 ^ k - 1 := by omega
  have hdiv : (v &&& (15 * 4096 + (2 ^ k - 1))) / 2 ^ 12 = v / 4096 := by
    rw [Nat.and_div_two_pow, hhi, Nat.and_two_pow_sub_one_eq_mod]
    omega
  have hmod : (v &&& (15 * 4096 + (2 ^ k - 1))) % 2 ^ 12 = v % 2 ^ k := by
    rw [Nat.and_mod_two_pow, hlo, Nat.and_two_pow_sub_one_eq_mod, Nat.mod_mod_of_dvd _ (Nat.pow_dvd_pow 2 hk)]
  omega

/-- Every mask of the opcode map tests the family and 0, 4, 8 or 12 low bits. -/
theorem row_mask : ∀ r ∈ opcodeTable, ∃ k ∈ [0, 4, 8, 12], r.mask = 15 * 4096 + (2 ^ k - 1) := by decide

/-- A row's test as arithmetic on the word. -/
theorem land_row_mask {r : OpcodeRow} (hr : r ∈ opcodeTable) {v : Nat} (hv : v < 65536) :
    v &&& r.mask = v / 4096 * 4096 + v % (r.mask % 4096 + 1) := by
  obtain ⟨k, hk, hmask⟩ := row_mask r hr
  have hk12 : k ≤ 12 := by
    simp only [List.mem_cons, List.not_mem_nil, or_false] at hk
    omega
  have hle : 2 ^ k ≤ 2 ^ 12 := Nat.pow_le_pow_right (by decide) hk12
  have hpos : 0 < 2 ^ k := Nat.two_pow_pos k
  have hlow : r.mask % 4096 + 1 = 2 ^ k := by omega
  rw [hlow, hmask, land_family_low k hv hk12]

/-- What the rows of the families with `Invalid` words test beside the family. -/
theorem row_selector : ∀ r ∈ opcodeTable,
    (r.pattern / 4096 = 0 → r.mask % 4096 = 4095 ∧ r.pattern ∈ [0xE0, 0xEE]) ∧
    (r.pattern / 4096 = 5 → r.mask % 4096 = 15 ∧ r.pattern % 16 = 0) ∧
    (r.pattern / 4096 = 8 → r.mask % 4096 = 15 ∧ r.pattern % 16 ∉ [8, 9, 10, 11, 12, 13, 15]) ∧
    (r.pattern / 4096 = 9 → r.mask % 4096 = 15 ∧ r.pattern % 16 = 0) ∧
    (r.pattern / 4096 = 14 → r.mask % 4096 = 255 ∧ BitVec.ofNat 8 (r.pattern % 256) ∈ [(0x9E : Byte), 0xA1]) ∧
    (r.pattern / 4096 = 15 → r.mask % 4096 = 255 ∧
      BitVec.ofNat 8 (r.pattern % 256) ∈ [(0x07 : Byte), 0x0A, 0x15, 0x18, 0x1E, 0x29, 0x33, 0x55, 0x65]) := by
  decide

section
variable {r : OpcodeRow} {w : Word} (hr : r ∈ opcodeTable) (hsel : w.toNat &&& r.mask = r.pattern)
include hr hsel

theorem selected_low {k : Nat} (hk : r.mask % 4096 = k) : w.toNat / 4096 * 4096 + w.toNat % (k + 1) = r.pattern := by
  rw [← hk, ← land_row_mask hr w.isLt, hsel]

theorem family_of_selected : w.toNat / 4096 = r.pattern / 4096 := by
  have hlow := selected_low hr hsel rfl
  have hmod : w.toNat % (r.mask % 4096 + 1) < r.mask % 4096 + 1 := Nat.mod_lt _ (Nat.succ_pos _)
  omega

theorem word_of_selected (hk : r.mask % 4096 = 4095) : w = BitVec.ofNat 16 r.pattern := by
  have hlow := selected_low hr hsel hk
  apply BitVec.eq_of_toNat_eq
  rw [BitVec.toNat_ofNat]
  omega

theorem fieldN_of_selected (hk : r.mask % 4096 = 15) : fieldN (lowByte w) = r.pattern % 16 := by
  have hlow := selected_low hr hsel hk
  rw [fieldN_lowByte]
  omega

theorem lowByte_of_selected (hk : r.mask % 4096 = 255) : lowByte w = BitVec.ofNat 8 (r.pattern % 256) := by
  have hlow := selected_low hr hsel hk
  rw [lowByte]
  congr 1
  omega

/-- A word that a row selects is not `Invalid`: in the families of R67 the row's selector contradicts the table's. -/
theorem decodeWord_of_selected : ∃ i, decodeWord w = .op i := by
  cases hdec : decodeWord w with
  | op i => exact ⟨i, rfl⟩
  | invalid c1 c2 =>
    exfalso
    obtain ⟨h0, h5, h8, h9, h14, h15⟩ := row_selector r hr
    rcases decode_invalid_iff.mp ⟨c1, c2, hdec⟩ with ⟨hf, hno⟩ | ⟨hf, hno⟩ | ⟨hf, hno⟩ | ⟨hf, hno⟩ | ⟨hf, hno⟩ | ⟨hf, hno⟩ <;>
      rw [familyOf_highByte, family_of_selected hr hsel] at hf
    · obtain ⟨hk, hpattern⟩ := h0 hf
      have hw := word_of_selected hr hsel hk
      simp only [List.mem_cons, List.not_mem_nil, or_false] at hpattern
      rcases hpattern with hp | hp <;> rw [hw, hp] at hno <;> exact hno (by decide)
    · obtain ⟨hk, hpattern⟩ := h5 hf
      exact hno ((fieldN_of_selected hr hsel hk).trans hpattern)
    · obtain ⟨hk, hpattern⟩ := h8 hf
      exact hpattern (fieldN_of_selected hr hsel hk ▸ hno)
    · obtain ⟨hk, hpattern⟩ := h9 hf
      exact hno ((fieldN_of_selected hr hsel hk).trans hpattern)
    · obtain ⟨hk, hpattern⟩ := h14 hf
      exact hno (lowByte_of_selected hr hsel hk ▸ hpattern)
    · obtain ⟨hk, hpattern⟩ := h15 hf
      exact hno (lowByte_of_selected hr hsel hk ▸ hpattern)

end

/-! ### Every instruction's row -/

theorem wordNNN_selected {op nnn : Nat} (hop : op < 16) (hnnn : nnn < 4096) : wordNNN op nnn &&& 0xF000 = op * 4096 := by
  have hfamily := land_family_low (v := wordNNN op nnn) 0 (by unfold wordNNN; omega) (by decide)
  refine hfamily.trans ?_
  unfold wordNNN
  omega

theorem wordXNN_selected {op nn : Nat} (x : Reg) (hop : op < 16) (hnn : nn < 256) :
    wordXNN op x nn &&& 0xF000 = op * 4096 ∧ wordXNN op x nn &&& 0xF0FF = op * 4096 + nn := by
  have hlt : wordXNN op x nn < 65536 := by
    unfold wordXNN
    omega
  refine ⟨(land_family_low 0 hlt (by decide)).trans ?_, (land_family_low 8 hlt (by decide)).trans ?_⟩ <;> unfold wordXNN <;>
    omega

theorem wordXYN_selected {op n : Nat} (x y : Reg) (hop : op < 16) (hn : n < 16) :
    wordXYN op x y n &&& 0xF000 = op * 4096 ∧ wordXYN op x y n &&& 0xF00F = op * 4096 + n := by
  have hlt : wordXYN op x y n < 65536 := by
    unfold wordXYN
    omega
  refine ⟨(land_family_low 0 hlt (by decide)).trans ?_, (land_family_low 4 hlt (by decide)).trans ?_⟩ <;> unfold wordXYN <;>
    omega

/-- A well-formed instruction has a row with its mnemonic, which selects its word: the mask tests the family and the bits of the
format that hold no operand (R66). -/
theorem exists_row {i : Instr} (hwf : i.wellFormed = true) :
    ∃ r ∈ opcodeTable, r.mnemonic = i.mnemonic ∧ i.wordValue &&& r.mask = r.pattern := by
  cases i
  case cls => exact ⟨⟨_, 0x00E0, 0xFFFF⟩, by decide, rfl, by decide⟩
  case ret => exact ⟨⟨_, 0x00EE, 0xFFFF⟩, by decide, rfl, by decide⟩
  case jmp | call | ldidx | jmpoff =>
    exact ⟨⟨_, _, 0xF000⟩, by decide, rfl, wordNNN_selected (by decide) (of_decide_eq_true hwf)⟩
  case draw x y n => exact ⟨⟨_, _, 0xF000⟩, by decide, rfl, (wordXYN_selected x y (by decide) (of_decide_eq_true hwf)).1⟩
  case skeqi x nn | sknei x nn | ldimm x nn | addimm x nn | rnd x nn =>
    exact ⟨⟨_, _, 0xF000⟩, by decide, rfl, (wordXNN_selected x (by decide) nn.isLt).1⟩
  case skeqr x y | skner x y | mov x y | or x y | and x y | xor x y | add x y | sub x y | shr x y | rsub x y | shl x y =>
    exact ⟨⟨_, _, 0xF00F⟩, by decide, rfl, (wordXYN_selected x y (by decide) (by decide)).2⟩
  case skkey x | sknkey x | lddt x | stdt x | stst x | addidx x | ldfont x | stbcd x | stregs x | ldregs x | waitkey x =>
    exact ⟨⟨_, _, 0xF0FF⟩, by decide, rfl, (wordXNN_selected x (by decide) (by decide)).2⟩

/-! ### The rows are apart -/

/-- Two rows agree on the bits that both masks test only where they are one row. -/
theorem rows_apart : ∀ r ∈ opcodeTable, ∀ q ∈ opcodeTable, r.pattern &&& q.mask = q.pattern &&& r.mask → r = q := by decide

theorem row_of_mnemonic : ∀ r ∈ opcodeTable, ∀ q ∈ opcodeTable, r.mnemonic = q.mnemonic → r = q := by decide

/-- No word selects two rows. -/
theorem row_unique {r q : OpcodeRow} (hr : r ∈ opcodeTable) (hq : q ∈ opcodeTable) {v : Nat} (hrv : v &&& r.mask = r.pattern)
    (hqv : v &&& q.mask = q.pattern) : r = q := by
  refine rows_apart r hr q hq ?_
  rw [← hrv, ← hqv, Nat.and_assoc, Nat.and_assoc, Nat.and_comm r.mask]

/-- Settles O5: a word selects the row of the instruction it decodes to, and no other. -/
theorem decoderFollowsTheOpcodeMap : Obligations.DecoderFollowsTheOpcodeMap := by
  intro w r hr
  have hrow {i : Instr} (hdec : decodeWord w = .op i) :
      ∃ q ∈ opcodeTable, q.mnemonic = i.mnemonic ∧ w.toNat &&& q.mask = q.pattern := by
    obtain ⟨hwf, hword⟩ := decode_op hdec
    rw [← word_of_bytes w, ← hword]
    exact exists_row hwf
  constructor
  · intro hsel
    obtain ⟨i, hdec⟩ := decodeWord_of_selected hr hsel
    obtain ⟨q, hq, hname, hqsel⟩ := hrow hdec
    exact ⟨i, hdec, row_unique hr hq hsel hqsel ▸ hname.symm⟩
  · rintro ⟨i, hdec, hname⟩
    obtain ⟨q, hq, hqname, hqsel⟩ := hrow hdec
    exact row_of_mnemonic q hq r hr (hqname.trans hname) ▸ hqsel

end Sys2Proof
end
